-- ==== Sys2Proof/Word.lean ====
section
/-! DEFINITION. The value types of the block: bytes, 32-bit register words, 64-bit hash words. -/

namespace Sys2Proof

/-- A byte (`00_scope.md` R8). -/
abbrev Byte := BitVec 8

/-- A register value or a command word, 32 bits (`10_state.md` R21, `30_encoding.md` R90). -/
abbrev Word := BitVec 32

/-- A working word of SHA-512, 64 bits (`43_sha.md` R190). -/
abbrev DWord := BitVec 64

end Sys2Proof
end

