-- ==== Sys2Proof/Syntax.lean ====
section
/-! DEFINITION. The six commands (`30_encoding.md` R93; one constructor per row of `opcode_table.json`). -/

namespace Sys2Proof

/-- A command. The only operand inside a command word is ERASE's 4-bit mask SEL: bit 0 BIN, bit 1 TXT, bit 2
DIGEST, bit 3 PWD (`30_encoding.md` R91, R92). -/
inductive Instr where
  /-- `BIN[0..BINLEN)` to Base32 text in TXT (`40_base32.md` R124). -/
  | b32enc
  /-- Base32 text in TXT to BIN (`40_base32.md` R129). -/
  | b32dec
  /-- Overwrite the selected buffers (`41_erase.md` R153). -/
  | erase (sel : BitVec 4)
  /-- DIGEST to TRUNCVAL, CODE, PWD (`42_truncate.md` R172). -/
  | trunc
  /-- HMAC of the counter under BIN into DIGEST (`44_hmac_hotp.md` R233). -/
  | hmac
  /-- HMAC then TRUNC in one command (`44_hmac_hotp.md` R240). -/
  | hotp
deriving DecidableEq, Repr

end Sys2Proof
end

