-- ==== Sys2Proof/WellFormed.lean ====
section
/-! DEFINITION. Well-formed commands. SEL is a 4-bit mask by its type and all 16 masks are legal, and no other
command has an operand (`30_encoding.md` R91, R93), so no term of `Instr` fails a check (log entry 14). -/

namespace Sys2Proof

/-- Whether a command is one the encoding admits: each of the 21 terms is (`30_encoding.md` R95). -/
def WellFormed (i : Instr) : Bool :=
  match i with
  | .b32enc => true
  | .b32dec => true
  | .erase _ => true
  | .trunc => true
  | .hmac => true
  | .hotp => true

end Sys2Proof
end

