-- ==== Sys2Proof/Decode.lean ====
section
/-! DEFINITION. The command word: the opcode map, the decoder and the encoder (`30_encoding.md` R90 to R96). -/

namespace Sys2Proof

/-- A row of the opcode map: a word `w` is this command when `w & mask = bits` (`30_encoding.md` R93). -/
structure OpRow where
  mnemonic : String
  bits : Word
  mask : Word
deriving DecidableEq, Repr

/-- The opcode map (`30_encoding.md` R93). -/
def opRows : List OpRow :=
  [⟨"B32ENC", 0x00000001, 0xFFFFFFFF⟩,
   ⟨"B32DEC", 0x00000002, 0xFFFFFFFF⟩,
   ⟨"ERASE",  0x00000003, 0xFFFFF0FF⟩,
   ⟨"TRUNC",  0x00000004, 0xFFFFFFFF⟩,
   ⟨"HMAC",   0x00000005, 0xFFFFFFFF⟩,
   ⟨"HOTP",   0x00000006, 0xFFFFFFFF⟩]

/-- `w` lies in the row (`30_encoding.md` R93). -/
def OpRow.selects (r : OpRow) (w : Word) : Bool := w &&& r.mask == r.bits

/-- `Legal(w)`: `w` matches a row of the opcode map (`30_encoding.md` R94). -/
def legal (w : Word) : Bool := opRows.any (·.selects w)

/-- The field OP, bits 7:0 (`30_encoding.md` R91). -/
def opField (w : Word) : BitVec 8 := w.extractLsb' 0 8

/-- The field SEL, bits 11:8 (`30_encoding.md` R91). -/
def selField (w : Word) : BitVec 4 := w.extractLsb' 8 4

/-- The field that must be zero, bits 31:12 (`30_encoding.md` R91). -/
def zeroField (w : Word) : BitVec 20 := w.extractLsb' 12 20

/-- Why a word is no command (`30_encoding.md` R94). -/
inductive DecodeError where
  /-- a bit of 31:12 is set -/
  | reservedBitsSet
  /-- OP is 0x00 or 0x07 .. 0xFF -/
  | unknownOpcode (op : BitVec 8)
  /-- SEL is not zero and OP is not ERASE's -/
  | selWithoutErase
deriving DecidableEq, Repr

/-- A command that has no SEL: the mask bits must be zero (`30_encoding.md` R91). -/
def withoutSel (w : Word) (i : Instr) : Except DecodeError Instr :=
  if selField w = 0 then .ok i else .error .selWithoutErase

/-- The command a word encodes, or why it encodes none (`30_encoding.md` R93, R94). -/
def decode (w : Word) : Except DecodeError Instr :=
  if zeroField w ≠ 0 then .error .reservedBitsSet
  else match (opField w).toNat with
    | 1 => withoutSel w .b32enc
    | 2 => withoutSel w .b32dec
    | 3 => .ok (.erase (selField w))
    | 4 => withoutSel w .trunc
    | 5 => withoutSel w .hmac
    | 6 => withoutSel w .hotp
    | _ => .error (.unknownOpcode (opField w))

/-- The word of a command (`30_encoding.md` R91, R93). -/
def encode (i : Instr) : Word :=
  match i with
  | .b32enc => 0x00000001
  | .b32dec => 0x00000002
  | .erase sel => 0x00000003 ||| (sel.setWidth 32 <<< 8)
  | .trunc => 0x00000004
  | .hmac => 0x00000005
  | .hotp => 0x00000006

/-- The command read from an opcode-table word. A command is one 32-bit number with no byte order of its own
(`30_encoding.md` R90), so the table's numbering is the word itself. -/
def decodeTableWord (nbits w : Nat) : Option Instr :=
  if nbits ≤ 32 ∧ w < 2 ^ 32 then
    match decode (BitVec.ofNat 32 w) with
    | .ok i => some i
    | .error _ => none
  else none

end Sys2Proof
end

