-- ==== Sys2Proof/Machine/Bytes.lean ====
section
/-! DEFINITION. Byte strings: big-endian conversion and cutting into pieces (`00_scope.md` R8). -/

namespace Sys2Proof.Machine

/-- `be(s)`, the integer whose big-endian encoding is `s` (`00_scope.md` R8). -/
def be (s : List Byte) : Nat := s.foldl (fun v b => v * 256 + b.toNat) 0

/-- `BE_n(v)`, the `n`-byte big-endian encoding of `v`: byte `i` is `v[8*(n-1-i)+7 : 8*(n-1-i)]` (`00_scope.md` R8). -/
def beBytes (n v : Nat) : List Byte :=
  (List.range n).map fun i => BitVec.ofNat 8 (v / 2 ^ (8 * (n - 1 - i)))

/-- At most `fuel` consecutive pieces of `k` elements, the last one possibly shorter. -/
def chunksFuel {α : Type} (k : Nat) : Nat → List α → List (List α)
  | 0, _ => []
  | _, [] => []
  | fuel + 1, x :: xs => (x :: xs).take k :: chunksFuel k fuel ((x :: xs).drop k)

/-- `xs` cut into consecutive pieces of `k` elements, the last one possibly shorter: the chunks of
`40_base32.md` R122, the groups of R128, the blocks and words of `43_sha.md` R194 to R203. -/
def chunks {α : Type} (k : Nat) (xs : List α) : List (List α) := chunksFuel k xs.length xs

/-- `s[a..a+n)` (`00_scope.md` R8). -/
def slice (s : List Byte) (a n : Nat) : List Byte := (s.drop a).take n

end Sys2Proof.Machine
end

