-- ==== Sys2Proof/Config.lean ====
section
/-! DEFINITION. What an implementation fixes (`00_scope.md` R6) and the free values the spec leaves open. -/

namespace Sys2Proof.Config

/-- `ID_VALUE` (`10_state.md` R24). -/
def idValue : Word := 0x4F545031

/-- `SECRET_MIN`, the least key length of HMAC and HOTP in bytes (`00_scope.md` R6). -/
def secretMin : Nat := 16

/-- `DIGITS_MIN` (`00_scope.md` R6). -/
def digitsMin : Nat := 6

/-- `DIGITS_MAX` (`00_scope.md` R6). -/
def digitsMax : Nat := 10

/-- `DIGITS_RESET` (`10_state.md` R31). -/
def digitsReset : Word := 6

/-- `BIN_MAX`, the capacity of BIN in bytes (`00_scope.md` R6). -/
def binMax : Nat := 260

/-- `TXT_MAX`, the capacity of TXT in bytes (`00_scope.md` R6). -/
def txtMax : Nat := 416

/-- `DIGEST_MAX`, the capacity of DIGEST in bytes (`00_scope.md` R6). -/
def digestMax : Nat := 64

/-- `PWD_MAX`, the capacity of PWD in bytes (`00_scope.md` R6). -/
def pwdMax : Nat := 10

/-- FREE VALUE: what a buffer byte that nothing has written since the last reset reads as, by the reset's
`residue` and the byte's offset (`70_reset_and_hazards.md` R292; log entry 4). -/
opaque unwrittenByte : Nat → Nat → Byte

/-- FREE VALUE: which unspecified contents a reset leaves; it may depend on what the buffers held before,
since reset is not an erase (`70_reset_and_hazards.md` R292; log entry 4). -/
opaque residueAfter : Nat → List Host.Cell → Nat

end Sys2Proof.Config
end

