-- ==== Sys2Proof/Machine/State.lean ====
section
/-! DEFINITION. The state of OTPCORE as plain data, its reset value, and the reasons a step can stop. -/

namespace Sys2Proof.Machine

/-- The closed set of hash functions (`10_state.md` R30). -/
inductive HashAlg where
  | sha1 | sha256 | sha512
deriving DecidableEq, Repr

/-- The four buffers (`10_state.md` R39 to R42). -/
inductive Buffer where
  | bin | txt | digest | pwd
deriving DecidableEq, Repr

/-- The error kinds, the four that no operation of the block raises among them (`60_exceptions.md` R261). -/
inductive ErrorKind where
  | invalidEncoding
  | invalidSecret
  | invalidHashAlgorithm
  | invalidTimeStep
  | invalidDigits
  | invalidTime
  | invalidVerificationWindow
  | secureRandomUnavailable
  | illegalCommand
  | invalidLength
deriving DecidableEq, Repr

/-- A bus transaction of `n` bytes at offset `addr` (`20_memory.md` R61). A write carries `8 * n` bits, held in
the low bits of a word (log entry 12). -/
inductive Txn where
  /-- `MemRead(addr, n)` -/
  | read (addr n : Nat)
  /-- `MemWrite(addr, n, v)` -/
  | write (addr n : Nat) (v : Word)
deriving DecidableEq, Repr

/-- What the host gets back from a transaction (`20_memory.md` R62, R63). -/
inductive Response where
  /-- no transaction since reset -/
  | none
  /-- a read's value -/
  | value (v : Word)
  /-- `Ok`, a write's result -/
  | ok
  /-- `AccessFault`, the result of an access that is not allowed; the block goes on (log entry 7) -/
  | accessFault
deriving DecidableEq, Repr

/-- One move of one agent (`10_state.md` R20; log entry 1). -/
inductive Event where
  /-- the host performs a transaction -/
  | host (t : Txn)
  /-- the sequencer has its turn: it completes the command in flight if it can -/
  | sequencer
  /-- the random source delivers a byte -/
  | deliver (b : Byte)
  /-- `reset` is asserted -/
  | reset
deriving DecidableEq, Repr

/-- Buffer bytes by host offset, offsets strictly rising (`Memory.wf`): the bytes written since the last reset.
An offset that is not listed reads as `Config.unwrittenByte` (log entry 4). -/
abbrev Memory := List Host.Cell

/-- The state: the spec's registers and buffers (`10_state.md` R20), then the model's own fields. -/
structure State where
  /-- CTRL.IE (R25) -/
  ie : Bool
  /-- STATUS.BUSY (R26) -/
  busy : Bool
  /-- STATUS.DONE (R26) -/
  done : Bool
  /-- STATUS.ERR (R26) -/
  err : Bool
  /-- STATUS.HZD (R26) -/
  hzd : Bool
  /-- CMDREG, the last accepted command word (R27) -/
  cmdreg : Word
  /-- ERRCODE bits 7:0 (R28) -/
  errcode : Byte
  /-- ERRINFO (R29) -/
  errinfo : Word
  /-- ALG (R30) -/
  alg : HashAlg
  /-- DIGITS (R31) -/
  digits : Word
  /-- CTR_LO (R32) -/
  ctrLo : Word
  /-- CTR_HI (R32) -/
  ctrHi : Word
  /-- BINLEN (R33) -/
  binlen : Word
  /-- TXTLEN (R34) -/
  txtlen : Word
  /-- DIGLEN (R35) -/
  diglen : Word
  /-- PWDLEN (R36) -/
  pwdlen : Word
  /-- TRUNCVAL bits 30:0 (R37) -/
  truncval : BitVec 31
  /-- CODE (R38) -/
  code : Word
  /-- the bytes of BIN, TXT, DIGEST and PWD (R39 to R42) -/
  mem : Memory
  /-- the model's own: which unspecified contents the last reset left (log entry 4) -/
  residue : Nat
  /-- the model's own: bytes the random source has delivered and no ERASE has taken, oldest first (log entry 6) -/
  draws : List Byte
  /-- the model's own: what the agents do next, in order (log entry 1) -/
  inputs : List Event
  /-- the model's own: the result of the latest transaction (log entry 11) -/
  response : Response
deriving DecidableEq, Repr

/-- Why the machine stops. -/
inductive Fault where
  /-- Raised by the sequencer when BUSY is 1 and CMDREG holds a word that is no command, a state no run reaches
  and for which `30_encoding.md` R98 gives no effect. Safe (log entry 8). -/
  | illegalInFlight (w : Word)
deriving DecidableEq, Repr

/-- Why an instruction has no meaning in the model. -/
inductive Refusal where
  /-- Raised by an arm of `exec` whose instruction has no meaning yet; no arm is left so. Safe. -/
  | notModelled (mnemonic : String)
deriving DecidableEq, Repr

/-- The state right after reset (`10_state.md` R46, `70_reset_and_hazards.md` R291). Every buffer byte is unwritten,
hence unspecified (R292); the model's own fields are empty (log entry 5). -/
def State.reset : State where
  ie := false
  busy := false
  done := false
  err := false
  hzd := false
  cmdreg := 0
  errcode := 0
  errinfo := 0
  alg := .sha1
  digits := Config.digitsReset
  ctrLo := 0
  ctrHi := 0
  binlen := 0
  txtlen := 0
  diglen := 0
  pwdlen := 0
  truncval := 0
  code := 0
  mem := []
  residue := 0
  draws := []
  inputs := []
  response := .none

end Sys2Proof.Machine
end

