-- ==== Sys2Proof/Machine/Flags.lean ====
section
/-! DEFINITION. The flags of STATUS and the interrupt output (`10_state.md` R26, `60_exceptions.md` R270). -/

namespace Sys2Proof.Machine

/-- What a read of STATUS returns: `zext_32(HZD || ERR || DONE || BUSY)` (`10_state.md` R26). -/
def State.statusWord (s : State) : Word :=
  (BitVec.ofBool s.hzd ++ BitVec.ofBool s.err ++ BitVec.ofBool s.done ++ BitVec.ofBool s.busy).setWidth 32

/-- A host write of `v` to STATUS: bits 1, 2, 3 clear DONE, ERR (with ERRCODE and ERRINFO), HZD; the other bits are
ignored (`10_state.md` R26). Clearing ERR is the return from a recorded error (`60_exceptions.md` R267). -/
def State.clearFlags (v : Word) (s : State) : State :=
  { s with
    done := s.done && !v.getLsbD 1
    err := s.err && !v.getLsbD 2
    errcode := if v.getLsbD 2 then 0 else s.errcode
    errinfo := if v.getLsbD 2 then 0 else s.errinfo
    hzd := s.hzd && !v.getLsbD 3 }

/-- A host write, or a buffer read, found a command in flight (`70_reset_and_hazards.md` R298). -/
def State.hazard (s : State) : State := { s with hzd := true }

/-- The flags of an accepted CMD write (`30_encoding.md` R97). -/
def State.accept (w : Word) (s : State) : State :=
  { s with cmdreg := w, done := false, busy := true }

/-- The flags of every completion, failed or not (`30_encoding.md` R98). -/
def State.finish (s : State) : State := { s with busy := false, done := true }

/-- The level-sensitive output `irq = CTRL.IE & STATUS.DONE` (`60_exceptions.md` R270). -/
def State.irq (s : State) : Bool := s.ie && s.done

end Sys2Proof.Machine
end

