-- ==== Sys2Proof/Machine/Ops.lean ====
section
/-! DEFINITION. The named operations over the buffers' memory, recording an error, and completing a command. -/

namespace Sys2Proof.Machine

/-! ### Memory -/

/-- The byte listed at offset `a`, if one is. -/
def Memory.lookup : Memory → Nat → Option Byte
  | [], _ => none
  | c :: m, a => if c.1 = a then some c.2 else Memory.lookup m a

/-- The memory with byte `b` at offset `a`, the offsets still strictly rising. -/
def Memory.write : Memory → Nat → Byte → Memory
  | [], a, b => [(a, b)]
  | c :: m, a, b =>
    if a < c.1 then (a, b) :: c :: m
    else if a = c.1 then (a, b) :: m
    else c :: Memory.write m a b

/-- `bs` stored at the offsets `a`, `a + 1`, ... -/
def Memory.writeBytes : Memory → Nat → List Byte → Memory
  | m, _, [] => m
  | m, a, b :: bs => Memory.writeBytes (Memory.write m a b) (a + 1) bs

/-- The canonical form: offsets strictly rising. An unlisted offset reads as a free value no entry can be compared
with, so there is no entry to leave out (log entry 4). -/
def Memory.wf : Memory → Bool
  | [] => true
  | [_] => true
  | c :: d :: m => decide (c.1 < d.1) && Memory.wf (d :: m)

/-! ### Buffers -/

/-- The offset of a buffer's byte 0 (`20_memory.md` R60). -/
def Buffer.base : Buffer → Nat
  | .bin => 0x100
  | .txt => 0x400
  | .digest => 0x600
  | .pwd => 0x680

/-- A buffer's capacity in bytes (`10_state.md` R39 to R42). -/
def Buffer.capacity : Buffer → Nat
  | .bin => Config.binMax
  | .txt => Config.txtMax
  | .digest => Config.digestMax
  | .pwd => Config.pwdMax

/-- The byte stored at host offset `a`; a free value where nothing has been written since reset
(`70_reset_and_hazards.md` R292; log entry 4). -/
def State.readByte (s : State) (a : Nat) : Byte :=
  match s.mem.lookup a with
  | some b => b
  | none => Config.unwrittenByte s.residue a

/-- `X[i]` for a buffer `X` (`00_scope.md` R9). -/
def State.byte (s : State) (b : Buffer) (i : Nat) : Byte := s.readByte (b.base + i)

/-- `X[0..n)` for a buffer `X` (`00_scope.md` R9). -/
def State.bytes (s : State) (b : Buffer) (n : Nat) : List Byte := (List.range n).map (s.byte b)

/-- `X[i] <- v` for one byte of a buffer. -/
def State.writeByte (b : Buffer) (i : Nat) (v : Byte) (s : State) : State :=
  { s with mem := s.mem.write (b.base + i) v }

/-- `X[i] <- bs[i]` for every index of `bs`; bytes above keep their values (`70_reset_and_hazards.md` R300). No index
lies outside the buffer: `40_base32.md` R131 for the lengths that can occur, and the cut at the capacity in states
no run reaches (log entry 10). -/
def State.writeBuffer (b : Buffer) (bs : List Byte) (s : State) : State :=
  { s with mem := s.mem.writeBytes b.base (bs.take b.capacity) }

/-! ### Recorded errors -/

/-- The number of an error kind (`60_exceptions.md` R261). -/
def ErrorKind.code : ErrorKind → Byte
  | .invalidEncoding => 0x01
  | .invalidSecret => 0x02
  | .invalidHashAlgorithm => 0x03
  | .invalidTimeStep => 0x04
  | .invalidDigits => 0x05
  | .invalidTime => 0x06
  | .invalidVerificationWindow => 0x07
  | .secureRandomUnavailable => 0x08
  | .illegalCommand => 0x10
  | .invalidLength => 0x11

/-- `record(Kind, info)`, the counterpart of taking an exception: the code, the detail and the flag, nothing else
(`60_exceptions.md` R264). -/
def State.record (k : ErrorKind) (info : Word) (s : State) : State :=
  { s with errcode := k.code, errinfo := info, err := true }

/-! ### Completion -/

/-- What the rule of a command comes to (`30_encoding.md` R98). -/
inductive Result where
  /-- all of the command's writes, made -/
  | written (s : State)
  /-- `raise Kind(info)`: none of them (`00_scope.md` R10) -/
  | raised (k : ErrorKind) (info : Word)
deriving DecidableEq, Repr

/-- `Complete` for a command whose rule came to `r` in the state `s` (`30_encoding.md` R98). -/
def complete (r : Result) (s : State) : State :=
  match r with
  | .written s' => s'.finish
  | .raised k info => (s.record k info).finish

end Sys2Proof.Machine
end

