-- ==== Sys2Proof/Machine/Operands.lean ====
section
/-! DEFINITION. What a command or a transaction names: the operands of commands (`10_state.md` R22, `30_encoding.md`
R92) and the registers and bytes behind host offsets (`20_memory.md` R60, R64). -/

namespace Sys2Proof.Machine

/-! ### Operands of commands -/

/-- The number of a hash function in ALG (`10_state.md` R30). -/
def HashAlg.toWord : HashAlg → Word
  | .sha1 => 0
  | .sha256 => 1
  | .sha512 => 2

/-- The hash function a value of ALG selects; the whole value is compared (`10_state.md` R30). -/
def HashAlg.ofWord (v : Word) : Option HashAlg :=
  if v = 0 then some .sha1 else if v = 1 then some .sha256 else if v = 2 then some .sha512 else none

/-- `L(alg)`, the digest length in bytes (`43_sha.md` R190). -/
def HashAlg.digestLength : HashAlg → Nat
  | .sha1 => 20
  | .sha256 => 32
  | .sha512 => 64

/-- `B(alg)`, the block length in bytes (`43_sha.md` R190). -/
def HashAlg.blockLength : HashAlg → Nat
  | .sha1 => 64
  | .sha256 => 64
  | .sha512 => 128

/-- `BIN[0..BINLEN)`, the raw bytes and the key (`44_hmac_hotp.md` R232). -/
def State.rawBytes (s : State) : List Byte := s.bytes .bin s.binlen.toNat

/-- `TXT[0..TXTLEN)` (`10_state.md` R40). -/
def State.text (s : State) : List Byte := s.bytes .txt s.txtlen.toNat

/-- `DIGEST[0..DIGLEN)` (`10_state.md` R41). -/
def State.digestBytes (s : State) : List Byte := s.bytes .digest s.diglen.toNat

/-- `CTR = CTR_HI * 2^32 + CTR_LO` (`10_state.md` R32). -/
def State.counter (s : State) : Nat := s.ctrHi.toNat * 2 ^ 32 + s.ctrLo.toNat

/-- `CounterBytes(CTR) = BE_8(CTR)` (`44_hmac_hotp.md` R230). -/
def State.counterBytes (s : State) : List Byte := beBytes 8 s.counter

/-! ### Registers -/

/-- The sixteen registers (`10_state.md` R21). -/
inductive Reg where
  | id | ctrl | status | cmd | errcode | errinfo | alg | digits
  | ctrLo | ctrHi | binlen | txtlen | diglen | pwdlen | truncval | code
deriving DecidableEq, Repr

/-- A register's offset (`10_state.md` R21). -/
def Reg.offset : Reg → Nat
  | .id => 0x000
  | .ctrl => 0x004
  | .status => 0x008
  | .cmd => 0x00C
  | .errcode => 0x010
  | .errinfo => 0x014
  | .alg => 0x018
  | .digits => 0x01C
  | .ctrLo => 0x020
  | .ctrHi => 0x024
  | .binlen => 0x028
  | .txtlen => 0x02C
  | .diglen => 0x030
  | .pwdlen => 0x034
  | .truncval => 0x038
  | .code => 0x03C

/-- The registers in the order of their offsets. -/
def Reg.all : List Reg :=
  [.id, .ctrl, .status, .cmd, .errcode, .errinfo, .alg, .digits,
   .ctrLo, .ctrHi, .binlen, .txtlen, .diglen, .pwdlen, .truncval, .code]

/-- Whether the host may only read a register (`20_memory.md` R64). -/
def Reg.readOnly : Reg → Bool
  | .id | .errcode | .errinfo | .pwdlen | .truncval | .code => true
  | .ctrl | .status | .cmd | .alg | .digits | .ctrLo | .ctrHi | .binlen | .txtlen | .diglen => false

/-- What a read of a register returns (`10_state.md` R24 to R38); reserved bits read 0. -/
def State.readReg (s : State) : Reg → Word
  | .id => Config.idValue
  | .ctrl => (BitVec.ofBool s.ie).setWidth 32
  | .status => s.statusWord
  | .cmd => s.cmdreg
  | .errcode => s.errcode.setWidth 32
  | .errinfo => s.errinfo
  | .alg => s.alg.toWord
  | .digits => s.digits
  | .ctrLo => s.ctrLo
  | .ctrHi => s.ctrHi
  | .binlen => s.binlen
  | .txtlen => s.txtlen
  | .diglen => s.diglen
  | .pwdlen => s.pwdlen
  | .truncval => s.truncval.setWidth 32
  | .code => s.code

/-! ### Host offsets -/

/-- The buffers in the order of their offsets. -/
def Buffer.all : List Buffer := [.bin, .txt, .digest, .pwd]

/-- Whether offset `a` is a byte of the buffer (`20_memory.md` R60). -/
def Buffer.holds (b : Buffer) (a : Nat) : Bool := decide (b.base ≤ a) && decide (a < b.base + b.capacity)

/-- What stands at a host offset. -/
inductive Target where
  | reg (r : Reg)
  | byte (b : Buffer) (i : Nat)
deriving DecidableEq, Repr

/-- Read or write. -/
inductive AccessKind where
  | read | write
deriving DecidableEq, Repr

/-- What an access of `n` bytes at offset `addr` names: a register by 4 bytes at its own offset, a buffer byte by 1
byte, nothing otherwise (`20_memory.md` R60, R64). -/
def Target.named (addr n : Nat) : Option Target :=
  if n = 4 then (Reg.all.find? fun r => r.offset == addr).map .reg
  else if n = 1 then (Buffer.all.find? (·.holds addr)).map fun b => .byte b (addr - b.base)
  else none

/-- Whether the host may access it so: every register but the read-only ones, and every buffer but PWD, may be
written (`20_memory.md` R64). -/
def Target.permits : AccessKind → Target → Bool
  | .read, _ => true
  | .write, .reg r => !r.readOnly
  | .write, .byte b _ => b != .pwd

/-- `Allowed(addr, n, kind)` and what it allows: the target, or nothing where the access is a fault
(`20_memory.md` R64). -/
def Target.allowed (k : AccessKind) (addr n : Nat) : Option Target :=
  (Target.named addr n).filter (Target.permits k)

end Sys2Proof.Machine
end

