-- ==== Sys2Proof/Machine/Bus.lean ====
section
/-! DEFINITION. The host's bus transactions and the registers' write rules (`20_memory.md` R62 to R64, `10_state.md`
R25 to R35, `30_encoding.md` R97). -/

namespace Sys2Proof.Machine

/-- `IssueCMD(w)` (`30_encoding.md` R97). -/
def State.issue (w : Word) (s : State) : State :=
  if legal w then s.accept w else s.record .illegalCommand w

/-- The write rule of each register (`10_state.md` R25 to R35, `30_encoding.md` R97). A rejected value is recorded at
once and the register keeps its value (`00_scope.md` R10). No access writes a read-only register (`20_memory.md` R64). -/
def State.writeReg (r : Reg) (v : Word) (s : State) : State :=
  match r with
  | .ctrl => { s with ie := v.getLsbD 0 }
  | .status => s.clearFlags v
  | .cmd => s.issue v
  | .alg =>
    match HashAlg.ofWord v with
    | some a => { s with alg := a }
    | none => s.record .invalidHashAlgorithm v
  | .digits =>
    if Config.digitsMin ≤ v.toNat ∧ v.toNat ≤ Config.digitsMax then { s with digits := v }
    else s.record .invalidDigits v
  | .ctrLo => { s with ctrLo := v }
  | .ctrHi => { s with ctrHi := v }
  | .binlen => if v.toNat ≤ Config.binMax then { s with binlen := v } else s.record .invalidLength v
  | .txtlen => if v.toNat ≤ Config.txtMax then { s with txtlen := v } else s.record .invalidLength v
  | .diglen => if v = 20 ∨ v = 32 ∨ v = 64 then { s with diglen := v } else s.record .invalidLength v
  | .id => s
  | .errcode => s
  | .errinfo => s
  | .pwdlen => s
  | .truncval => s
  | .code => s

/-- `MemRead(addr, n)` (`20_memory.md` R62). -/
def memRead (addr n : Nat) (s : State) : Response × State :=
  match Target.allowed .read addr n with
  | none => (.accessFault, s)
  | some (.reg r) => (.value (s.readReg r), s)
  | some (.byte b i) =>
    if s.busy then (.value 0, s.hazard) else (.value ((s.byte b i).setWidth 32), s)

/-- `MemWrite(addr, n, v)` (`20_memory.md` R63). -/
def memWrite (addr n : Nat) (v : Word) (s : State) : Response × State :=
  match Target.allowed .write addr n with
  | none => (.accessFault, s)
  | some (.reg r) => (.ok, if s.busy then s.hazard else s.writeReg r v)
  | some (.byte b i) => (.ok, if s.busy then s.hazard else s.writeByte b i (v.setWidth 8))

/-- A transaction's result and the state after it (`20_memory.md` R61). -/
def transact (t : Txn) (s : State) : Response × State :=
  match t with
  | .read addr n => memRead addr n s
  | .write addr n v => memWrite addr n v s

/-- A transaction with its result held for the host (log entry 11). -/
def hostStep (t : Txn) (s : State) : State :=
  { (transact t s).2 with response := (transact t s).1 }

end Sys2Proof.Machine
end

