-- ==== Sys2Proof/Machine/Base32.lean ====
section
/-! DEFINITION. The Base32 codec: B32ENC and B32DEC (`40_base32.md`). -/

namespace Sys2Proof.Machine

/-- The pad character `=` (`40_base32.md` R120). -/
def padChar : Byte := 0x3D

/-- `sym(v)` for `v` in 0 .. 31 (`40_base32.md` R121). -/
def sym (v : Nat) : Byte :=
  if v ≤ 25 then BitVec.ofNat 8 (0x41 + v) else BitVec.ofNat 8 (0x32 + (v - 26))

/-- `val(c)`: the value of an alphabet character of either case, nothing for every other byte (`40_base32.md` R121). -/
def val (c : Byte) : Option Nat :=
  if 0x41 ≤ c.toNat ∧ c.toNat ≤ 0x5A then some (c.toNat - 0x41)
  else if 0x61 ≤ c.toNat ∧ c.toNat ≤ 0x7A then some (c.toNat - 0x61)
  else if 0x32 ≤ c.toNat ∧ c.toNat ≤ 0x37 then some (c.toNat - 0x32 + 26)
  else none

/-! ### Encoding -/

/-- `PadCount` of a chunk of `r` bytes, `r` = 1 .. 5 (`40_base32.md` R123; a full chunk is the row `r = 0`). -/
def padCount (r : Nat) : Nat :=
  match r with
  | 1 => 6
  | 2 => 4
  | 3 => 3
  | 4 => 1
  | _ => 0

/-- The eight symbols of a chunk of up to 5 bytes: zero-padded, read as a 40-bit big-endian integer, cut into 5-bit
groups from the top, the symbols of the zero padding replaced by `=` (`40_base32.md` R122). -/
def encChunk (chunk : List Byte) : List Byte :=
  let v := be (chunk ++ List.replicate (5 - chunk.length) 0)
  let p := padCount chunk.length
  ((List.range 8).map fun j => sym (v / 2 ^ (35 - 5 * j) % 32)).take (8 - p) ++ List.replicate p padChar

/-- `Enc32(b)` (`40_base32.md` R122). Only the last chunk can be short, so only the last group is padded. -/
def enc32 (b : List Byte) : List Byte := (chunks 5 b).flatMap encChunk

/-- What B32ENC writes (`40_base32.md` R124). -/
def encodeResult (s : State) : Result :=
  let t := enc32 s.rawBytes
  .written { s.writeBuffer .txt t with txtlen := BitVec.ofNat 32 t.length }

/-- B32ENC (`40_base32.md` R124). -/
def execB32enc (s : State) : Host.Outcome State Fault Refusal :=
  .next (complete (encodeResult s) s)

/-! ### Decoding -/

/-- Step 1: the text without its trailing `=`, however many (`40_base32.md` R125). -/
def realSymbols (t : List Byte) : List Byte := (t.reverse.dropWhile (· == padChar)).reverse

/-- Step 2: the smallest index, counted from `i`, of a byte outside the alphabet (`40_base32.md` R126). -/
def firstInvalid : Nat → List Byte → Option Nat
  | _, [] => none
  | i, c :: u => if (val c).isNone then some i else firstInvalid (i + 1) u

/-- The bytes a group of `r` real symbols gives, for the five legal lengths (`40_base32.md` R127). -/
def groupBytes (r : Nat) : Nat :=
  match r with
  | 2 => 1
  | 4 => 2
  | 5 => 3
  | 7 => 4
  | 8 => 5
  | _ => 0

/-- Step 4 for one group of up to 8 symbol values: accumulated 5 bits at a time, shifted to 40 bits, the valid bytes
kept (`40_base32.md` R128). -/
def decGroup (vs : List Nat) : List Byte :=
  let v := vs.foldl (fun v x => v * 32 + x) 0 * 2 ^ (5 * (8 - vs.length))
  (beBytes 5 v).take (groupBytes vs.length)

/-- `Dec32(t)`: the bytes, or the detail word of the InvalidEncoding it raises (`40_base32.md` R125 to R128). -/
def dec32 (t : List Byte) : Except Word (List Byte) :=
  let u := realSymbols t
  let m := u.length
  match firstInvalid 0 u with
  | some i => .error (0x00010000 ||| BitVec.ofNat 32 i)
  | none =>
    if m % 8 = 1 ∨ m % 8 = 3 ∨ m % 8 = 6 then .error (0x00020000 ||| BitVec.ofNat 32 m)
    else .ok ((chunks 8 (u.filterMap val)).flatMap decGroup)

/-- What B32DEC writes or raises (`40_base32.md` R129). -/
def decodeResult (s : State) : Result :=
  match dec32 s.text with
  | .ok out => .written { s.writeBuffer .bin out with binlen := BitVec.ofNat 32 out.length }
  | .error info => .raised .invalidEncoding info

/-- B32DEC (`40_base32.md` R129). -/
def execB32dec (s : State) : Host.Outcome State Fault Refusal :=
  .next (complete (decodeResult s) s)

end Sys2Proof.Machine
end

