-- ==== Sys2Proof/Machine/Erase.lean ====
section
/-! DEFINITION. The secure-erase sequencer: ERASE (`41_erase.md`). -/

namespace Sys2Proof.Machine

/-- `Scrub` of one byte: draws are taken until one differs from the old byte; that one and the draws left, or
nothing where the delivered draws run out first (`41_erase.md` R152, R156). -/
def scrub (old : Byte) : List Byte → Option (Byte × List Byte)
  | [] => none
  | r :: rest => if r = old then scrub old rest else some (r, rest)

/-- `Scrub` of each byte in ascending index: the new bytes and the draws left (`41_erase.md` R153). -/
def scrubAll : List Byte → List Byte → Option (List Byte × List Byte)
  | [], draws => some ([], draws)
  | old :: olds, draws =>
    match scrub old draws with
    | none => none
    | some (r, rest) =>
      match scrubAll olds rest with
      | none => none
      | some (news, left) => some (r :: news, left)

/-- The length register of an erased buffer becomes 0, and with PWD the two result registers too
(`41_erase.md` R153, R154). -/
def State.release (b : Buffer) (s : State) : State :=
  match b with
  | .bin => { s with binlen := 0 }
  | .txt => { s with txtlen := 0 }
  | .digest => { s with diglen := 0 }
  | .pwd => { s with pwdlen := 0, truncval := 0, code := 0 }

/-- Erase one buffer over its whole capacity, or nothing where the draws do not suffice (`41_erase.md` R153, R154). -/
def eraseBuffer (b : Buffer) (s : State) : Option State :=
  match scrubAll (s.bytes b b.capacity) s.draws with
  | none => none
  | some (news, left) => some (({ s with draws := left }.writeBuffer b news).release b)

/-- The bit of SEL that selects a buffer (`30_encoding.md` R91). -/
def Buffer.selBit : Buffer → Nat
  | .bin => 0
  | .txt => 1
  | .digest => 2
  | .pwd => 3

/-- Erase a buffer if SEL selects it. -/
def eraseIfSelected (sel : BitVec 4) (b : Buffer) (s : State) : Option State :=
  if sel.getLsbD b.selBit then eraseBuffer b s else some s

/-- All that ERASE writes, in the order BIN, TXT, DIGEST, PWD; nothing where the draws do not suffice
(`41_erase.md` R153). -/
def eraseSelected (sel : BitVec 4) (s : State) : Option State :=
  (((eraseIfSelected sel .bin s).bind (eraseIfSelected sel .txt)).bind
    (eraseIfSelected sel .digest)).bind (eraseIfSelected sel .pwd)

/-- ERASE (`41_erase.md` R153). While the random source has not delivered what it needs, its completion is not
enabled: nothing changes and the command stays in flight (R156; log entry 6). -/
def execErase (sel : BitVec 4) (s : State) : Host.Outcome State Fault Refusal :=
  match eraseSelected sel s with
  | some s' => .next (complete (.written s') s)
  | none => .next s

end Sys2Proof.Machine
end

