-- ==== Sys2Proof/Machine/Sha.lean ====
section
/-! DEFINITION. The hash functions SHA-1, SHA-256 and SHA-512 and their selection (`43_sha.md`). -/

namespace Sys2Proof.Machine

/-! ### Shared parts -/

/-- `Pad(m, B, lb)`: the byte 0x80, the fewest zero bytes that fill the last block, the length in bits as `lb` bytes
(`43_sha.md` R191). -/
def padMessage (m : List Byte) (blockLength lengthBytes : Nat) : List Byte :=
  let zeros := (blockLength - (m.length + 1 + lengthBytes) % blockLength) % blockLength
  m ++ [0x80] ++ List.replicate zeros 0 ++ beBytes lengthBytes (8 * m.length)

/-- The big-endian words of a block (`43_sha.md` R194, R198, R202). -/
def blockWords (w : Nat) (block : List Byte) : List (BitVec w) :=
  (chunks (w / 8) block).map fun c => BitVec.ofNat w (be c)

/-- The message schedule, newest word first: `k` more words, each by `next` from those before it. -/
def extendSchedule {w : Nat} (next : List (BitVec w) → BitVec w) : Nat → List (BitVec w) → List (BitVec w)
  | 0, newestFirst => newestFirst
  | k + 1, newestFirst => extendSchedule next k (next newestFirst :: newestFirst)

/-- The big-endian bytes of a list of words. -/
def wordBytes {w : Nat} (ws : List (BitVec w)) : List Byte := ws.flatMap fun x => beBytes (w / 8) x.toNat

/-- `ROTL_w(x, n)`, 0 < n < w (`00_scope.md` R7). -/
def rotl {w : Nat} (x : BitVec w) (n : Nat) : BitVec w := (x <<< n) ||| (x >>> (w - n))

/-- `ROTR_w(x, n)`, 0 < n < w (`00_scope.md` R7). -/
def rotr {w : Nat} (x : BitVec w) (n : Nat) : BitVec w := (x >>> n) ||| (x <<< (w - n))

/-! ### SHA-1 -/

/-- SHA-1's chaining value and its working variables (`43_sha.md` R192, R194). -/
structure Chain5 where
  (a b c d e : Word)
deriving DecidableEq, Repr

/-- The initial chaining value (`43_sha.md` R192). -/
def sha1Init : Chain5 := ⟨0x67452301, 0xEFCDAB89, 0x98BADCFE, 0x10325476, 0xC3D2E1F0⟩

/-- The round constant `K(t)` (`43_sha.md` R192). -/
def sha1K (t : Nat) : Word :=
  if t ≤ 19 then 0x5A827999 else if t ≤ 39 then 0x6ED9EBA1 else if t ≤ 59 then 0x8F1BBCDC else 0xCA62C1D6

/-- The round function `f(t, b, c, d)` (`43_sha.md` R193). -/
def sha1F (t : Nat) (b c d : Word) : Word :=
  if t ≤ 19 then (b &&& c) ||| (~~~b &&& d)
  else if t ≤ 39 then b ^^^ c ^^^ d
  else if t ≤ 59 then (b &&& c) ||| (b &&& d) ||| (c &&& d)
  else b ^^^ c ^^^ d

/-- `W[t]` for `t` >= 16, the words before it newest first (`43_sha.md` R194). -/
def sha1Next (ws : List Word) : Word :=
  rotl (ws.getD 2 0 ^^^ ws.getD 7 0 ^^^ ws.getD 13 0 ^^^ ws.getD 15 0) 1

/-- Round `t` with the schedule word `W[t]` (`43_sha.md` R194). -/
def sha1Round (h : Chain5) (wt : Word × Nat) : Chain5 :=
  let T := rotl h.a 5 + sha1F wt.2 h.b h.c h.d + h.e + sha1K wt.2 + wt.1
  ⟨T, h.a, rotl h.b 30, h.c, h.d⟩

/-- `SHA1Compress` (`43_sha.md` R194). -/
def sha1Compress (h : Chain5) (block : List Byte) : Chain5 :=
  let ws := (extendSchedule sha1Next 64 (blockWords 32 block).reverse).reverse
  let r := ws.zipIdx.foldl sha1Round h
  ⟨h.a + r.a, h.b + r.b, h.c + r.c, h.d + r.d, h.e + r.e⟩

/-- `SHA1(m)` (`43_sha.md` R195). -/
def sha1 (m : List Byte) : List Byte :=
  let h := (chunks 64 (padMessage m 64 8)).foldl sha1Compress sha1Init
  wordBytes [h.a, h.b, h.c, h.d, h.e]

/-! ### The common form of SHA-256 and SHA-512 -/

/-- The chaining value and working variables of SHA-256 and SHA-512 (`43_sha.md` R198, R202). -/
structure Chain8 (w : Nat) where
  (a b c d e f g h : BitVec w)
deriving DecidableEq, Repr

/-- `Ch(x, y, z)` (`43_sha.md` R197, R201). -/
def ch {w : Nat} (x y z : BitVec w) : BitVec w := (x &&& y) ^^^ (~~~x &&& z)

/-- `Maj(x, y, z)` (`43_sha.md` R197, R201). -/
def maj {w : Nat} (x y z : BitVec w) : BitVec w := (x &&& y) ^^^ (x &&& z) ^^^ (y &&& z)

/-- What tells SHA-256 and SHA-512 apart: the constants and the four sigma functions. -/
structure Sha2 (w : Nat) where
  init : Chain8 w
  k : List (BitVec w)
  bsig0 : BitVec w → BitVec w
  bsig1 : BitVec w → BitVec w
  ssig0 : BitVec w → BitVec w
  ssig1 : BitVec w → BitVec w

/-- `W[t]` for `t` >= 16, the words before it newest first (`43_sha.md` R198, R202). -/
def sha2Next {w : Nat} (p : Sha2 w) (ws : List (BitVec w)) : BitVec w :=
  p.ssig1 (ws.getD 1 0) + ws.getD 6 0 + p.ssig0 (ws.getD 14 0) + ws.getD 15 0

/-- One round with its constant and its schedule word (`43_sha.md` R198, R202). -/
def sha2Round {w : Nat} (p : Sha2 w) (s : Chain8 w) (kw : BitVec w × BitVec w) : Chain8 w :=
  let t1 := s.h + p.bsig1 s.e + ch s.e s.f s.g + kw.1 + kw.2
  let t2 := p.bsig0 s.a + maj s.a s.b s.c
  ⟨t1 + t2, s.a, s.b, s.c, s.d + t1, s.e, s.f, s.g⟩

/-- `SHA256Compress` and `SHA512Compress`: as many rounds as there are constants (`43_sha.md` R198, R202). -/
def sha2Compress {w : Nat} (p : Sha2 w) (s : Chain8 w) (block : List Byte) : Chain8 w :=
  let ws := (extendSchedule (sha2Next p) (p.k.length - 16) (blockWords w block).reverse).reverse
  let r := (p.k.zip ws).foldl (sha2Round p) s
  ⟨s.a + r.a, s.b + r.b, s.c + r.c, s.d + r.d, s.e + r.e, s.f + r.f, s.g + r.g, s.h + r.h⟩

/-- The digest of a padded message (`43_sha.md` R199, R203). -/
def sha2Digest {w : Nat} (p : Sha2 w) (blockLength : Nat) (padded : List Byte) : List Byte :=
  let s := (chunks blockLength padded).foldl (sha2Compress p) p.init
  wordBytes [s.a, s.b, s.c, s.d, s.e, s.f, s.g, s.h]

/-! ### SHA-256 -/

/-- `K256[0..63]` (`43_sha.md` R196). -/
def k256 : List Word :=
  [0x428A2F98, 0x71374491, 0xB5C0FBCF, 0xE9B5DBA5, 0x3956C25B, 0x59F111F1, 0x923F82A4, 0xAB1C5ED5]
  ++ [0xD807AA98, 0x12835B01, 0x243185BE, 0x550C7DC3, 0x72BE5D74, 0x80DEB1FE, 0x9BDC06A7, 0xC19BF174]
  ++ [0xE49B69C1, 0xEFBE4786, 0x0FC19DC6, 0x240CA1CC, 0x2DE92C6F, 0x4A7484AA, 0x5CB0A9DC, 0x76F988DA]
  ++ [0x983E5152, 0xA831C66D, 0xB00327C8, 0xBF597FC7, 0xC6E00BF3, 0xD5A79147, 0x06CA6351, 0x14292967]
  ++ [0x27B70A85, 0x2E1B2138, 0x4D2C6DFC, 0x53380D13, 0x650A7354, 0x766A0ABB, 0x81C2C92E, 0x92722C85]
  ++ [0xA2BFE8A1, 0xA81A664B, 0xC24B8B70, 0xC76C51A3, 0xD192E819, 0xD6990624, 0xF40E3585, 0x106AA070]
  ++ [0x19A4C116, 0x1E376C08, 0x2748774C, 0x34B0BCB5, 0x391C0CB3, 0x4ED8AA4A, 0x5B9CCA4F, 0x682E6FF3]
  ++ [0x748F82EE, 0x78A5636F, 0x84C87814, 0x8CC70208, 0x90BEFFFA, 0xA4506CEB, 0xBEF9A3F7, 0xC67178F2]

/-- SHA-256's constants and functions (`43_sha.md` R196, R197). -/
def sha256Params : Sha2 32 where
  init :=
    ⟨0x6A09E667, 0xBB67AE85, 0x3C6EF372, 0xA54FF53A,
     0x510E527F, 0x9B05688C, 0x1F83D9AB, 0x5BE0CD19⟩
  k := k256
  bsig0 x := rotr x 2 ^^^ rotr x 13 ^^^ rotr x 22
  bsig1 x := rotr x 6 ^^^ rotr x 11 ^^^ rotr x 25
  ssig0 x := rotr x 7 ^^^ rotr x 18 ^^^ (x >>> 3)
  ssig1 x := rotr x 17 ^^^ rotr x 19 ^^^ (x >>> 10)

/-- `SHA256(m)` (`43_sha.md` R199). -/
def sha256 (m : List Byte) : List Byte := sha2Digest sha256Params 64 (padMessage m 64 8)

/-! ### SHA-512 -/

/-- `K512[0..79]` (`43_sha.md` R200). -/
def k512 : List DWord :=
  [0x428A2F98D728AE22, 0x7137449123EF65CD, 0xB5C0FBCFEC4D3B2F, 0xE9B5DBA58189DBBC]
  ++ [0x3956C25BF348B538, 0x59F111F1B605D019, 0x923F82A4AF194F9B, 0xAB1C5ED5DA6D8118]
  ++ [0xD807AA98A3030242, 0x12835B0145706FBE, 0x243185BE4EE4B28C, 0x550C7DC3D5FFB4E2]
  ++ [0x72BE5D74F27B896F, 0x80DEB1FE3B1696B1, 0x9BDC06A725C71235, 0xC19BF174CF692694]
  ++ [0xE49B69C19EF14AD2, 0xEFBE4786384F25E3, 0x0FC19DC68B8CD5B5, 0x240CA1CC77AC9C65]
  ++ [0x2DE92C6F592B0275, 0x4A7484AA6EA6E483, 0x5CB0A9DCBD41FBD4, 0x76F988DA831153B5]
  ++ [0x983E5152EE66DFAB, 0xA831C66D2DB43210, 0xB00327C898FB213F, 0xBF597FC7BEEF0EE4]
  ++ [0xC6E00BF33DA88FC2, 0xD5A79147930AA725, 0x06CA6351E003826F, 0x142929670A0E6E70]
  ++ [0x27B70A8546D22FFC, 0x2E1B21385C26C926, 0x4D2C6DFC5AC42AED, 0x53380D139D95B3DF]
  ++ [0x650A73548BAF63DE, 0x766A0ABB3C77B2A8, 0x81C2C92E47EDAEE6, 0x92722C851482353B]
  ++ [0xA2BFE8A14CF10364, 0xA81A664BBC423001, 0xC24B8B70D0F89791, 0xC76C51A30654BE30]
  ++ [0xD192E819D6EF5218, 0xD69906245565A910, 0xF40E35855771202A, 0x106AA07032BBD1B8]
  ++ [0x19A4C116B8D2D0C8, 0x1E376C085141AB53, 0x2748774CDF8EEB99, 0x34B0BCB5E19B48A8]
  ++ [0x391C0CB3C5C95A63, 0x4ED8AA4AE3418ACB, 0x5B9CCA4F7763E373, 0x682E6FF3D6B2B8A3]
  ++ [0x748F82EE5DEFB2FC, 0x78A5636F43172F60, 0x84C87814A1F0AB72, 0x8CC702081A6439EC]
  ++ [0x90BEFFFA23631E28, 0xA4506CEBDE82BDE9, 0xBEF9A3F7B2C67915, 0xC67178F2E372532B]
  ++ [0xCA273ECEEA26619C, 0xD186B8C721C0C207, 0xEADA7DD6CDE0EB1E, 0xF57D4F7FEE6ED178]
  ++ [0x06F067AA72176FBA, 0x0A637DC5A2C898A6, 0x113F9804BEF90DAE, 0x1B710B35131C471B]
  ++ [0x28DB77F523047D84, 0x32CAAB7B40C72493, 0x3C9EBE0A15C9BEBC, 0x431D67C49C100D4C]
  ++ [0x4CC5D4BECB3E42B6, 0x597F299CFC657E2A, 0x5FCB6FAB3AD6FAEC, 0x6C44198C4A475817]

/-- SHA-512's constants and functions (`43_sha.md` R200, R201). -/
def sha512Params : Sha2 64 where
  init :=
    ⟨0x6A09E667F3BCC908, 0xBB67AE8584CAA73B,
     0x3C6EF372FE94F82B, 0xA54FF53A5F1D36F1,
     0x510E527FADE682D1, 0x9B05688C2B3E6C1F,
     0x1F83D9ABFB41BD6B, 0x5BE0CD19137E2179⟩
  k := k512
  bsig0 x := rotr x 28 ^^^ rotr x 34 ^^^ rotr x 39
  bsig1 x := rotr x 14 ^^^ rotr x 18 ^^^ rotr x 41
  ssig0 x := rotr x 1 ^^^ rotr x 8 ^^^ (x >>> 7)
  ssig1 x := rotr x 19 ^^^ rotr x 61 ^^^ (x >>> 6)

/-- `SHA512(m)` (`43_sha.md` R203). -/
def sha512 (m : List Byte) : List Byte := sha2Digest sha512Params 128 (padMessage m 128 16)

/-! ### Selection -/

/-- `Hash(alg, m)` (`43_sha.md` R204). -/
def hashOf (alg : HashAlg) (m : List Byte) : List Byte :=
  match alg with
  | .sha1 => sha1 m
  | .sha256 => sha256 m
  | .sha512 => sha512 m

end Sys2Proof.Machine
end

