-- ==== Sys2Proof/Machine/Truncate.lean ====
section
/-! DEFINITION. Dynamic truncation and decimal rendering: TRUNC (`42_truncate.md`). -/

namespace Sys2Proof.Machine

/-- The low nibble of the digest's last byte (`42_truncate.md` R170). -/
def truncOffset (d : List Byte) : Nat := (d.getD (d.length - 1) 0).toNat % 16

/-- `Trunc(d)`: the four bytes at the offset, big-endian, bit 31 dropped (`42_truncate.md` R170). -/
def trunc (d : List Byte) : BitVec 31 := BitVec.ofNat 31 (be (slice d (truncOffset d) 4))

/-- `Render(value, N)`, the code (`42_truncate.md` R171). -/
def renderCode (value n : Nat) : Nat := value % 10 ^ n

/-- `Render(value, N)`, the digits of `code`: exactly `N` ASCII bytes, most significant first (`42_truncate.md` R171). -/
def renderDigits (code n : Nat) : List Byte :=
  (List.range n).map fun i => BitVec.ofNat 8 (0x30 + code / 10 ^ (n - 1 - i) % 10)

/-- The four results of a truncated value: TRUNCVAL, CODE, PWD, PWDLEN (`42_truncate.md` R172, `44_hmac_hotp.md` R240). -/
def State.storePassword (value : BitVec 31) (s : State) : State :=
  let n := s.digits.toNat
  let code := renderCode value.toNat n
  { s.writeBuffer .pwd (renderDigits code n) with
    truncval := value
    code := BitVec.ofNat 32 code
    pwdlen := s.digits }

/-- What TRUNC writes or raises (`42_truncate.md` R172). -/
def truncResult (s : State) : Result :=
  if s.diglen = 0 then .raised .invalidLength s.diglen
  else .written (s.storePassword (trunc s.digestBytes))

/-- TRUNC (`42_truncate.md` R172). -/
def execTrunc (s : State) : Host.Outcome State Fault Refusal :=
  .next (complete (truncResult s) s)

end Sys2Proof.Machine
end

