-- ==== Sys2Proof/Machine/Hmac.lean ====
section
/-! DEFINITION. HMAC digest computation and counter-to-password conversion: HMAC and HOTP (`44_hmac_hotp.md`). -/

namespace Sys2Proof.Machine

/-- `K0`: the key, hashed first if it is longer than a block, zero-padded to a block (`44_hmac_hotp.md` R231). -/
def hmacKeyBlock (alg : HashAlg) (key : List Byte) : List Byte :=
  let k1 := if key.length > alg.blockLength then hashOf alg key else key
  k1 ++ List.replicate (alg.blockLength - k1.length) 0

/-- `HMAC(alg, key, msg)` (`44_hmac_hotp.md` R231). -/
def hmac (alg : HashAlg) (key msg : List Byte) : List Byte :=
  let k0 := hmacKeyBlock alg key
  let inner := hashOf alg (k0.map (· ^^^ 0x36) ++ msg)
  hashOf alg (k0.map (· ^^^ 0x5C) ++ inner)

/-- The digest HMAC and HOTP compute: the counter's bytes under the raw key (`44_hmac_hotp.md` R232, R233, R240). -/
def State.counterHmac (s : State) : List Byte := hmac s.alg s.rawBytes s.counterBytes

/-- `DIGEST[i] <- d[i]; DIGLEN <- L(ALG)` (`44_hmac_hotp.md` R233). -/
def State.storeDigest (d : List Byte) (s : State) : State :=
  { s.writeBuffer .digest d with diglen := BitVec.ofNat 32 s.alg.digestLength }

/-- What HMAC writes or raises (`44_hmac_hotp.md` R233, R234). -/
def hmacResult (s : State) : Result :=
  if s.binlen.toNat < Config.secretMin then .raised .invalidSecret s.binlen
  else .written (s.storeDigest s.counterHmac)

/-- HMAC (`44_hmac_hotp.md` R233). -/
def execHmac (s : State) : Host.Outcome State Fault Refusal :=
  .next (complete (hmacResult s) s)

/-- What HOTP writes or raises (`44_hmac_hotp.md` R240). -/
def hotpResult (s : State) : Result :=
  if s.binlen.toNat < Config.secretMin then .raised .invalidSecret s.binlen
  else .written ((s.storeDigest s.counterHmac).storePassword (trunc s.counterHmac))

/-- HOTP (`44_hmac_hotp.md` R240). -/
def execHotp (s : State) : Host.Outcome State Fault Refusal :=
  .next (complete (hotpResult s) s)

end Sys2Proof.Machine
end

