-- ==== Sys2Proof/Machine/Dispatch.lean ====
section
/-! DEFINITION. The meaning of each command: the whole of `Complete` for it (`30_encoding.md` R98). -/

namespace Sys2Proof.Machine

def exec (i : Instr) (s : State) : Host.Outcome State Fault Refusal :=
  match i with
  | .b32enc => Sys2Proof.Machine.execB32enc s
  | .b32dec => Sys2Proof.Machine.execB32dec s
  | .erase sel => Sys2Proof.Machine.execErase sel s
  | .trunc => Sys2Proof.Machine.execTrunc s
  | .hmac => Sys2Proof.Machine.execHmac s
  | .hotp => Sys2Proof.Machine.execHotp s

end Sys2Proof.Machine
end

