-- ==== Sys2Proof/Machine/Agents.lean ====
section
/-! DEFINITION. The moves of the four agents (`10_state.md` R20). -/

namespace Sys2Proof.Machine

/-- The sequencer's turn: `Complete` while BUSY is 1, nothing otherwise (`30_encoding.md` R98). -/
def sequencerTurn (s : State) : Host.Outcome State Fault Refusal :=
  if s.busy then
    match decode s.cmdreg with
    | .ok i => exec i s
    | .error _ => .fault (.illegalInFlight s.cmdreg)
  else .next s

/-- `reset` in any state: every register takes its reset value, the buffers are left unspecified, the command in
flight is abandoned (`70_reset_and_hazards.md` R290 to R293). The random source and the other agents are not reset
(`10_state.md` R44; log entries 4 and 6). -/
def resetEvent (s : State) : State :=
  { State.reset with
    residue := Config.residueAfter s.residue s.mem
    draws := s.draws
    inputs := s.inputs }

/-- The random source delivers a byte (`41_erase.md` R151). -/
def deliverByte (b : Byte) (s : State) : State := { s with draws := s.draws ++ [b] }

/-- Whether a move is the host's. -/
def Event.isHost : Event → Bool
  | .host _ => true
  | .sequencer => false
  | .deliver _ => false
  | .reset => false

/-- One move of one agent. -/
def perform (e : Event) (s : State) : Host.Outcome State Fault Refusal :=
  match e with
  | .host t => .next (hostStep t s)
  | .sequencer => sequencerTurn s
  | .deliver b => .next (deliverByte b s)
  | .reset => .next (resetEvent s)

/-- The next move in order; when no other agent has one, the sequencer's (log entries 1 and 3). -/
def advance (s : State) : Host.Outcome State Fault Refusal :=
  match s.inputs with
  | [] => sequencerTurn s
  | e :: rest => perform e { s with inputs := rest }

/-- The state with a command word in flight and the sequencer next to move: what an accepted CMD write leaves
(`30_encoding.md` R97; log entry 2). -/
def State.inFlight (w : Word) (s : State) : State :=
  { s.accept w with inputs := .sequencer :: s.inputs }

end Sys2Proof.Machine
end

