-- ==== Sys2Proof/Machine/Step.lean ====
section
/-! DEFINITION. One step of the machine: one atomic transition of one agent (`00_scope.md` R5, `20_memory.md` R71). -/

namespace Sys2Proof.Machine

/-- One step. -/
def step (s : State) : Host.Outcome State Fault Refusal := advance s

/-- The state in which the next step carries out the command word `w`. The block fetches nothing: a command comes to
run because the host writes its word to CMD, so this stands for that accepted write (log entry 2). -/
def State.withFetchWord (s : State) (nbits w : Nat) : State :=
  s.inFlight (BitVec.ofNat 32 (w % 2 ^ nbits))

end Sys2Proof.Machine
end

