-- ==== Sys2Proof/Machine/Script.lean ====
section
/-! DEFINITION. The script notation of the host: each line as the transactions it stands for (`30_encoding.md` R100,
R101). A script becomes the machine's inputs through `Script.events`. -/

namespace Sys2Proof.Machine.Script

/-- `WR32 REG, value` -/
def wr32 (r : Reg) (v : Word) : List Txn := [.write r.offset 4 v]

/-- `RD32 REG` -/
def rd32 (r : Reg) : List Txn := [.read r.offset 4]

/-- `WR8 BUF[i], byte` -/
def wr8 (b : Buffer) (i : Nat) (v : Byte) : List Txn := [.write (b.base + i) 1 (v.setWidth 32)]

/-- `RD8 BUF[i]` -/
def rd8 (b : Buffer) (i : Nat) : List Txn := [.read (b.base + i) 1]

/-- `CMD mnemonic` and `CMD ERASE sel` -/
def cmd (i : Instr) : List Txn := wr32 .cmd (encode i)

/-- The length register of a buffer. -/
def lengthReg : Buffer → Reg
  | .bin => .binlen
  | .txt => .txtlen
  | .digest => .diglen
  | .pwd => .pwdlen

/-- `WAIT` that polls STATUS `more` times after the first read; how often is not specified (log entry 15). -/
def wait (more : Nat) : List Txn := (List.replicate (more + 1) (rd32 .status)).flatten

/-- The byte writes of `LOAD`, from index `i` on. -/
def loadBytes (b : Buffer) : Nat → List Byte → List Txn
  | _, [] => []
  | i, v :: vs => wr8 b i v ++ loadBytes b (i + 1) vs

/-- `LOAD BUF, s`; not available for PWD. -/
def load (b : Buffer) (s : List Byte) : Option (List Txn) :=
  if b = .pwd then none else some (loadBytes b 0 s ++ wr32 (lengthReg b) (BitVec.ofNat 32 s.length))

/-- `DUMP BUF` of a buffer whose length register reads `n`. -/
def dump (b : Buffer) (n : Nat) : List Txn := rd32 (lengthReg b) ++ (List.range n).flatMap (rd8 b)

/-- `CLRFLAGS` -/
def clrFlags : List Txn := wr32 .status 0x0000000E

/-- `SETCTR c` -/
def setCtr (c : BitVec 64) : List Txn := wr32 .ctrHi (c.extractLsb' 32 32) ++ wr32 .ctrLo (c.extractLsb' 0 32)

/-- Transactions as moves of the host. -/
def events (ts : List Txn) : List Event := ts.map .host

end Sys2Proof.Machine.Script
end

