-- ==== Sys2Proof/Safety.lean ====
section
/-! DEFINITION. What holds in every state a run reaches (`10_state.md` R47), and what a safe run is. -/

namespace Sys2Proof.Machine

/-- The offsets at which a buffer byte stands (`20_memory.md` R60). -/
def mapped (a : Nat) : Bool := Buffer.all.any (·.holds a)

/-- The invariants of the state (`10_state.md` R47, R28; `60_exceptions.md` R261; `30_encoding.md` R97). That ALG is one
of three functions, TRUNCVAL is below 2^31 and reserved bits are 0 the types of the fields say already. -/
structure State.Inv (s : State) : Prop where
  /-- `6 <= DIGITS <= 10` -/
  digitsRange : 6 ≤ s.digits.toNat ∧ s.digits.toNat ≤ 10
  /-- `BINLEN <= 260` -/
  binlenRange : s.binlen.toNat ≤ 260
  /-- `TXTLEN <= 416` -/
  txtlenRange : s.txtlen.toNat ≤ 416
  /-- DIGLEN is 0, 20, 32 or 64 -/
  diglenRange : s.diglen = 0 ∨ s.diglen = 20 ∨ s.diglen = 32 ∨ s.diglen = 64
  /-- PWDLEN is 0 or in 6 .. 10 -/
  pwdlenRange : s.pwdlen = 0 ∨ (6 ≤ s.pwdlen.toNat ∧ s.pwdlen.toNat ≤ 10)
  /-- `CODE <= TRUNCVAL` -/
  codeBound : s.code.toNat ≤ s.truncval.toNat
  /-- `ERRCODE != 0` exactly when `STATUS.ERR = 1` -/
  errcodeIffErr : s.errcode ≠ 0 ↔ s.err = true
  /-- ERRCODE holds no code that no operation raises -/
  errcodeRaised : s.errcode ∈ [0x00, 0x01, 0x02, 0x03, 0x05, 0x10, 0x11]
  /-- a command in flight is a legal word -/
  inFlightLegal : s.busy = true → legal s.cmdreg = true
  /-- CODE has a spelling of PWDLEN digits -/
  codeFits : s.pwdlen ≠ 0 → s.code.toNat < 10 ^ s.pwdlen.toNat
  /-- `PWD[0..PWDLEN)` is the PWDLEN-digit decimal spelling of CODE, each byte a digit -/
  passwordSpellsCode : s.pwdlen ≠ 0 → s.bytes .pwd s.pwdlen.toNat = renderDigits s.code.toNat s.pwdlen.toNat
  /-- the memory keeps its canonical form -/
  memoryCanonical : s.mem.wf = true
  /-- only buffer bytes are stored -/
  memoryMapped : ∀ c ∈ s.mem, mapped c.1 = true

/-- A run of any number of steps from `s` stops at no fault and no refusal. -/
def State.Safe (s : State) : Prop := ∀ n : Nat, ∃ t : State, Host.Core.run Sys2Proof.core n s = .next t

/-- A host script has ended: none of its transactions is still to come and no command is in flight; moves of the other
agents may be (`60_exceptions.md` R281). -/
def State.ended (s : State) : Bool := s.inputs.all (!·.isHost) && !s.busy

end Sys2Proof.Machine
end

