-- ==== Sys2Proof/Certificates/Slice0/Obligations.lean ====
section
/-! DEFINITION. The statements about OTPCORE. A frame is written as an equation: `{ t with x := s.x, ... } = s` says that
`t` and `s` agree on every field but those named. -/

open Sys2Proof Sys2Proof.Machine

/-! ### Command words -/

/-- Every command is read back from its word (`30_encoding.md` R91, R93). -/
def Obligations.EncodedCommandDecodes : Prop :=
  ∀ i : Instr, WellFormed i = true → decode (encode i) = .ok i

/-- A word that decodes is the word of what it decodes to, so no two words are one command (`30_encoding.md` R93). -/
def Obligations.DecodedWordIsItsEncoding : Prop :=
  ∀ (w : Word) (i : Instr), decode w = .ok i → encode i = w

/-- The opcode map: `w` is a command exactly when `w & mask = match`, and ERASE's SEL is `w[11:8]`
(`30_encoding.md` R93). -/
def Obligations.OpcodeMapSelects : Prop :=
  ∀ w : Word,
    (decode w = .ok .b32enc ↔ w &&& 0xFFFFFFFF = 0x00000001) ∧
    (decode w = .ok .b32dec ↔ w &&& 0xFFFFFFFF = 0x00000002) ∧
    (∀ sel : BitVec 4, decode w = .ok (.erase sel) ↔
      w &&& 0xFFFFF0FF = 0x00000003 ∧ sel = w.extractLsb' 8 4) ∧
    (decode w = .ok .trunc ↔ w &&& 0xFFFFFFFF = 0x00000004) ∧
    (decode w = .ok .hmac ↔ w &&& 0xFFFFFFFF = 0x00000005) ∧
    (decode w = .ok .hotp ↔ w &&& 0xFFFFFFFF = 0x00000006)

/-- Legal words are those the decoder reads, and there are 21 of them (`30_encoding.md` R94, R95). -/
def Obligations.LegalWordsAreTheDecodedOnes : Prop :=
  (∀ w : Word, legal w = true ↔ ∃ i, decode w = .ok i) ∧
  (∀ w : Word, legal w = true ↔ w ∈ [1, 2, 4, 5, 6] ∨ ∃ sel : BitVec 4, w = 3 + sel.setWidth 32 * 256)

/-- Which words are illegal, and that an illegal word written to CMD while BUSY = 0 starts nothing and is recorded as
IllegalCommand with the word in ERRINFO (`30_encoding.md` R94). -/
def Obligations.IllegalWordStartsNothing : Prop :=
  ∀ w : Word,
    (legal w = false ↔
      (w.extractLsb' 0 8 : BitVec 8) = 0 ∨ 7 ≤ (w.extractLsb' 0 8 : BitVec 8).toNat ∨
      ((w.extractLsb' 8 4 : BitVec 4) ≠ 0 ∧ (w.extractLsb' 0 8 : BitVec 8) ≠ 3) ∨
      (w.extractLsb' 12 20 : BitVec 20) ≠ 0) ∧
    (legal w = false → ∀ s : State, s.busy = false →
      memWrite 0x00C 4 w s = (.ok, { s with errcode := 0x10, errinfo := w, err := true }))

/-- Words written out from the encodings decode to their commands (`30_encoding.md` R91, R93). -/
def Obligations.SpecWordsDecode : Prop :=
  decode 0b00000000000000000000_0000_00000001#32 = .ok .b32enc ∧
  decode 0b00000000000000000000_0000_00000010#32 = .ok .b32dec ∧
  decode 0b00000000000000000000_0011_00000011#32 = .ok (.erase 0b0011) ∧
  decode 0b00000000000000000000_1000_00000011#32 = .ok (.erase 0b1000) ∧
  decode 0b00000000000000000000_0000_00000100#32 = .ok .trunc ∧
  decode 0b00000000000000000000_0000_00000101#32 = .ok .hmac ∧
  decode 0b00000000000000000000_0000_00000110#32 = .ok .hotp

/-! ### The step -/

/-- While BUSY = 1 the sequencer's turn carries out the command whose word CMDREG holds; its turn comes when the
inputs say so or when they are used up (`30_encoding.md` R98; the schedule is the model's, log entry 1). A word given
to the machine is the one its next step carries out, as after an accepted CMD write (R97; log entry 2). -/
def Obligations.StepRunsTheCommandInFlight : Prop :=
  (∀ (s : State) (i : Instr), s.busy = true → decode s.cmdreg = .ok i →
    (s.inputs = [] → step s = exec i s) ∧
    (∀ rest, s.inputs = .sequencer :: rest → step s = exec i { s with inputs := rest })) ∧
  (∀ (s : State) (i : Instr), WellFormed i = true →
    step (s.withFetchWord 32 (encode i).toNat) =
      exec i { s with cmdreg := encode i, done := false, busy := true })

/-- With no command in flight the sequencer has no transition (`30_encoding.md` R98). -/
def Obligations.SequencerIdleWithoutCommand : Prop :=
  ∀ s : State, s.busy = false →
    (s.inputs = [] → step s = .next s) ∧
    (∀ rest, s.inputs = .sequencer :: rest → step s = .next { s with inputs := rest })

/-- A host transaction and a delivered byte are one step each (`20_memory.md` R61, R71; `41_erase.md` R151). -/
def Obligations.StepPerformsTheNextInput : Prop :=
  ∀ (s : State) (rest : List Event),
    (∀ t, s.inputs = .host t :: rest →
      step s = .next { (transact t { s with inputs := rest }).2 with
        response := (transact t { s with inputs := rest }).1 }) ∧
    (∀ b, s.inputs = .deliver b :: rest → step s = .next { s with inputs := rest, draws := s.draws ++ [b] })

/-- Reset in any state sets every register, abandons a command in flight and leaves every buffer byte unspecified
(`70_reset_and_hazards.md` R291, R292, R293). `t.mem = []` is the model's way to say unspecified: every byte then reads
as a free value, which may be the byte it held (log entry 4, DESIGN CHOICE). -/
def Obligations.ResetSetsEveryRegister : Prop :=
  ∀ (s : State) (rest : List Event), s.inputs = .reset :: rest →
    ∃ t, step s = .next t ∧
      t.ie = false ∧ t.busy = false ∧ t.done = false ∧ t.err = false ∧ t.hzd = false ∧ t.cmdreg = 0 ∧
      t.errcode = 0 ∧ t.errinfo = 0 ∧ t.alg = .sha1 ∧ t.digits = 6 ∧ t.ctrLo = 0 ∧ t.ctrHi = 0 ∧
      t.binlen = 0 ∧ t.txtlen = 0 ∧ t.diglen = 0 ∧ t.pwdlen = 0 ∧ t.truncval = 0 ∧ t.code = 0 ∧
      t.readReg .id = 0x4F545031 ∧ t.irq = false ∧ t.mem = [] ∧ t.inputs = rest

/-- The state a machine starts from reads, register by register, as the spec says of reset (`10_state.md` R46). -/
def Obligations.ResetStateReadsAsSpecified : Prop :=
  ∀ r : Reg, State.reset.readReg r = (if r = .id then 0x4F545031 else if r = .digits then 6 else 0)

/-! ### Invariants -/

/-- The reset state satisfies the invariants (`10_state.md` R47). -/
def Obligations.ResetSatisfiesInvariants : Prop := State.reset.Inv

/-- Every step keeps the invariants (`10_state.md` R47). -/
def Obligations.StepKeepsInvariants : Prop :=
  ∀ s t : State, s.Inv → step s = .next t → t.Inv

/-- From a state that satisfies the invariants no run stops, whatever the host, the random source and reset do. -/
def Obligations.NoRunStops : Prop := ∀ s : State, s.Inv → s.Safe

/-! ### Whole-machine rules -/

/-- BUSY is set only by an accepted CMD write and cleared only by the sequencer or reset (`10_state.md` R26). -/
def Obligations.BusyChangesOnlyByIssueAndCompletion : Prop :=
  ∀ s t : State, step s = .next t →
    (s.busy = false → t.busy = true →
      ∃ w rest, s.inputs = .host (.write 0x00C 4 w) :: rest ∧ legal w = true ∧ t.cmdreg = w ∧ t.done = false) ∧
    (s.busy = true → t.busy = false →
      s.inputs = [] ∨ (∃ rest, s.inputs = .sequencer :: rest) ∨ (∃ rest, s.inputs = .reset :: rest))

/-- A 1 written to STATUS.ERR while BUSY = 0 clears ERR and zeroes ERRCODE and ERRINFO, and nothing else does but reset,
which zeroes them too (`60_exceptions.md` R267). -/
def Obligations.ErrorClearedOnlyByHostOrReset : Prop :=
  (∀ (s : State) (v : Word), s.busy = false → v.getLsbD 2 = true →
    ∃ t, memWrite 0x008 4 v s = (.ok, t) ∧ t.err = false ∧ t.errcode = 0 ∧ t.errinfo = 0) ∧
  ∀ s t : State, step s = .next t → s.err = true → t.err = false →
    ((∃ rest, s.inputs = .reset :: rest) ∨
      (∃ v rest, s.inputs = .host (.write 0x008 4 v) :: rest ∧ v.getLsbD 2 = true ∧ s.busy = false)) ∧
    t.errcode = 0 ∧ t.errinfo = 0

/-- `irq` is `CTRL.IE & STATUS.DONE`; with IE = 1 every completion raises it; and it rises only when a command completes
or the host enables the interrupt over a set DONE (`60_exceptions.md` R270). -/
def Obligations.InterruptRisesOnlyByCompletionOrEnable : Prop :=
  (∀ s : State, s.irq = (s.ie && s.done)) ∧
  (∀ (i : Instr) (s t : State), s.ie = true → s.busy = true → exec i s = .next t → t.busy = false → t.irq = true) ∧
  ∀ s t : State, step s = .next t → s.irq = false → t.irq = true →
    (s.busy = true ∧ t.busy = false ∧ t.done = true) ∨
    (∃ v rest, s.inputs = .host (.write 0x004 4 v) :: rest ∧ v.getLsbD 0 = true ∧ s.busy = false ∧ s.done = true)

/-- No command changes CTRL, HZD, CMDREG, ALG, DIGITS or the counter (`10_state.md` R22, `44_hmac_hotp.md` R241). -/
def Obligations.CommandsLeaveHostRegistersAlone : Prop :=
  ∀ (i : Instr) (s t : State), exec i s = .next t →
    t.ie = s.ie ∧ t.hzd = s.hzd ∧ t.cmdreg = s.cmdreg ∧ t.alg = s.alg ∧ t.digits = s.digits ∧
    t.ctrLo = s.ctrLo ∧ t.ctrHi = s.ctrHi ∧ t.residue = s.residue ∧ t.inputs = s.inputs ∧ t.response = s.response

/-- A command that records an error changes BUSY, DONE, ERR, ERRCODE and ERRINFO only (`60_exceptions.md` R265). -/
def Obligations.FailedCommandWritesNothing : Prop :=
  ∀ (i : Instr) (s t : State), exec i s = .next t → s.err = false → t.err = true →
    { t with busy := s.busy, done := s.done, err := s.err, errcode := s.errcode, errinfo := s.errinfo } = s ∧
    t.busy = false ∧ t.done = true

/-- No host transaction changes PWD, PWDLEN, TRUNCVAL or CODE (`10_state.md` R36, R37, R38, R42). -/
def Obligations.HostCannotWriteResults : Prop :=
  ∀ (x : Txn) (s : State),
    (hostStep x s).pwdlen = s.pwdlen ∧ (hostStep x s).truncval = s.truncval ∧ (hostStep x s).code = s.code ∧
    (∀ i, i < 10 → (hostStep x s).byte .pwd i = s.byte .pwd i)

/-! ### The bus -/

/-- `Allowed(addr, n, kind)`, and that everything else is an access fault that changes no state, not even HZD
(`20_memory.md` R64). -/
def Obligations.AllowedAccesses : Prop :=
  (∀ (k : AccessKind) (addr n : Nat),
    (Target.allowed k addr n).isSome = true ↔
      (addr < 0x040 ∧ n = 4 ∧ addr % 4 = 0 ∧
        (k = .read ∨ addr ∉ [0x000, 0x010, 0x014, 0x034, 0x038, 0x03C])) ∨
      (n = 1 ∧ ((0x100 ≤ addr ∧ addr ≤ 0x203) ∨ (0x400 ≤ addr ∧ addr ≤ 0x59F) ∨
        (0x600 ≤ addr ∧ addr ≤ 0x63F))) ∨
      (n = 1 ∧ 0x680 ≤ addr ∧ addr ≤ 0x689 ∧ k = .read)) ∧
  (∀ (addr n : Nat) (s : State), Target.allowed .read addr n = none → memRead addr n s = (.accessFault, s)) ∧
  (∀ (addr n : Nat) (v : Word) (s : State),
    Target.allowed .write addr n = none → memWrite addr n v s = (.accessFault, s))

/-- Every register is read at its offset, BUSY or not, and reading it changes nothing (`10_state.md` R21,
`20_memory.md` R62, R68). -/
def Obligations.RegisterReadsArePure : Prop :=
  ∀ s : State,
    memRead 0x000 4 s = (.value 0x4F545031, s) ∧
    memRead 0x004 4 s = (.value (if s.ie then 1 else 0), s) ∧
    memRead 0x008 4 s = (.value s.statusWord, s) ∧
    memRead 0x00C 4 s = (.value s.cmdreg, s) ∧
    memRead 0x010 4 s = (.value (s.errcode.setWidth 32), s) ∧
    memRead 0x014 4 s = (.value s.errinfo, s) ∧
    memRead 0x018 4 s = (.value (match s.alg with | .sha1 => 0 | .sha256 => 1 | .sha512 => 2), s) ∧
    memRead 0x01C 4 s = (.value s.digits, s) ∧
    memRead 0x020 4 s = (.value s.ctrLo, s) ∧
    memRead 0x024 4 s = (.value s.ctrHi, s) ∧
    memRead 0x028 4 s = (.value s.binlen, s) ∧
    memRead 0x02C 4 s = (.value s.txtlen, s) ∧
    memRead 0x030 4 s = (.value s.diglen, s) ∧
    memRead 0x034 4 s = (.value s.pwdlen, s) ∧
    memRead 0x038 4 s = (.value (s.truncval.setWidth 32), s) ∧
    memRead 0x03C 4 s = (.value s.code, s)

/-- The flags in STATUS by bit, and what a write of `v` does to them (`10_state.md` R26). -/
def Obligations.StatusBitsReadAndClear : Prop :=
  ∀ s : State,
    (s.statusWord.getLsbD 0 = s.busy ∧ s.statusWord.getLsbD 1 = s.done ∧ s.statusWord.getLsbD 2 = s.err ∧
      s.statusWord.getLsbD 3 = s.hzd ∧ ∀ k, 4 ≤ k → s.statusWord.getLsbD k = false) ∧
    (∀ v : Word, s.busy = false → ∃ t, memWrite 0x008 4 v s = (.ok, t) ∧
      t.done = (if v.getLsbD 1 then false else s.done) ∧
      t.err = (if v.getLsbD 2 then false else s.err) ∧
      t.errcode = (if v.getLsbD 2 then 0 else s.errcode) ∧
      t.errinfo = (if v.getLsbD 2 then 0 else s.errinfo) ∧
      t.hzd = (if v.getLsbD 3 then false else s.hzd) ∧
      { t with done := s.done, err := s.err, errcode := s.errcode, errinfo := s.errinfo, hzd := s.hzd } = s)

/-- The five validated registers: which values are taken, and that any other leaves the register alone and is recorded
at once, the write still answering `Ok` (`10_state.md` R30, R31, R33, R34, R35; `60_exceptions.md` R262). CTRL keeps
bit 0 alone and each counter half takes any value (R25, R32). -/
def Obligations.OperandRegisterWrites : Prop :=
  ∀ (s : State) (v : Word), s.busy = false →
    memWrite 0x018 4 v s = (.ok,
      if v = 0 then { s with alg := .sha1 } else if v = 1 then { s with alg := .sha256 }
      else if v = 2 then { s with alg := .sha512 }
      else { s with errcode := 0x03, errinfo := v, err := true }) ∧
    memWrite 0x01C 4 v s = (.ok,
      if 6 ≤ v.toNat ∧ v.toNat ≤ 10 then { s with digits := v }
      else { s with errcode := 0x05, errinfo := v, err := true }) ∧
    memWrite 0x028 4 v s = (.ok,
      if v.toNat ≤ 260 then { s with binlen := v } else { s with errcode := 0x11, errinfo := v, err := true }) ∧
    memWrite 0x02C 4 v s = (.ok,
      if v.toNat ≤ 416 then { s with txtlen := v } else { s with errcode := 0x11, errinfo := v, err := true }) ∧
    memWrite 0x030 4 v s = (.ok,
      if v = 20 ∨ v = 32 ∨ v = 64 then { s with diglen := v }
      else { s with errcode := 0x11, errinfo := v, err := true }) ∧
    memWrite 0x004 4 v s = (.ok, { s with ie := v.getLsbD 0 }) ∧
    memWrite 0x020 4 v s = (.ok, { s with ctrLo := v }) ∧
    memWrite 0x024 4 v s = (.ok, { s with ctrHi := v })

/-- Issue: while BUSY = 1 a CMD write is discarded and sets HZD; while BUSY = 0 a legal word is taken and an illegal one
is recorded (`30_encoding.md` R97). -/
def Obligations.CommandIssue : Prop :=
  ∀ (s : State) (w : Word),
    (s.busy = true → memWrite 0x00C 4 w s = (.ok, { s with hzd := true })) ∧
    (s.busy = false → memWrite 0x00C 4 w s = (.ok,
      if legal w = true then { s with cmdreg := w, done := false, busy := true }
      else { s with errcode := 0x10, errinfo := w, err := true }))

/-- While BUSY = 0 a read of any buffer byte, of PWD too, answers the byte and changes nothing; a byte written to BIN, TXT
or DIGEST is read back, every other byte of the buffers reads as before, and no register changes
(`20_memory.md` R62, R63, R64). -/
def Obligations.BufferByteReadsBack : Prop :=
  ∀ (s : State) (b : Buffer) (i : Nat), s.busy = false → i < b.capacity →
    memRead (b.base + i) 1 s = (.value ((s.byte b i).setWidth 32), s) ∧
    (∀ v : Word, b ≠ .pwd → ∃ t, memWrite (b.base + i) 1 v s = (.ok, t) ∧
      memRead (b.base + i) 1 t = (.value (v &&& 0xFF), t) ∧
      (∀ a, a ≠ b.base + i → t.readByte a = s.readByte a) ∧
      { t with mem := s.mem } = s)

/-- The lockout: while BUSY = 1 every allowed write is discarded and every buffer read answers 0x00, each setting HZD;
register reads work normally and set nothing (`70_reset_and_hazards.md` R298). -/
def Obligations.LockoutWhileBusy : Prop :=
  ∀ s : State, s.busy = true →
    (∀ (addr n : Nat) (v : Word), (Target.allowed .write addr n).isSome = true →
      memWrite addr n v s = (.ok, { s with hzd := true })) ∧
    (∀ (b : Buffer) (i : Nat), i < b.capacity → memRead (b.base + i) 1 s = (.value 0, { s with hzd := true })) ∧
    (∀ r : Reg, memRead r.offset 4 s = (.value (s.readReg r), s))

/-- A command uses the operands it was issued with: whatever transactions the host performs while it is in flight, it
comes to the same state but for HZD and the host's own response (`20_memory.md` R71). -/
def Obligations.CommandUsesOperandsAtIssue : Prop :=
  ∀ (i : Instr) (s t : State) (xs : List Txn), s.busy = true → exec i s = .next t →
    ∃ (h : Bool) (r : Response),
      exec i (xs.foldl (fun u x => hostStep x u) s) = .next { t with hzd := h, response := r }

/-! ### Base32 -/

/-- The symbol of every value, and which bytes have a value: the symbol itself and, for a letter, its lower case
(`40_base32.md` R121). -/
def Obligations.AlphabetValues : Prop :=
  (∀ v, v < 32 → (sym v).toNat = if v ≤ 25 then 0x41 + v else 0x32 + (v - 26)) ∧
  (∀ (c : Byte) (v : Nat), val c = some v ↔ v < 32 ∧ (c = sym v ∨ (v ≤ 25 ∧ c.toNat = 0x61 + v)))

/-- The encoded text over the whole string at once: its length, the symbol of every 5-bit group of the zero-padded
bits, and `=` for every group that lies wholly in the padding (`40_base32.md` R122, R123). -/
def Obligations.EncodedTextSymbols : Prop :=
  ∀ b : List Byte,
    (enc32 b).length = 8 * ((b.length + 4) / 5) ∧
    ∀ k (h : k < (enc32 b).length),
      (enc32 b)[k] =
        if 5 * k < 8 * b.length then
          sym (be (b ++ List.replicate (5 * ((b.length + 4) / 5) - b.length) 0)
            / 2 ^ (40 * ((b.length + 4) / 5) - 5 * (k + 1)) % 32)
        else 0x3D

/-- `=` at the end is stripped, all of it and nothing else (`40_base32.md` R125). -/
def Obligations.TrailingPadsAreStripped : Prop :=
  ∀ t : List Byte,
    (∃ k, t = realSymbols t ++ List.replicate k 0x3D) ∧
    (∀ h : realSymbols t ≠ [], (realSymbols t).getLast h ≠ 0x3D)

/-- The first byte outside the alphabet decides, before any group length is looked at; then a bad length of the last
group (`40_base32.md` R126, R127). -/
def Obligations.DecodeRejects : Prop :=
  ∀ t : List Byte,
    (∀ i (h : i < (realSymbols t).length), val (realSymbols t)[i] = none →
      (∀ j (hj : j < i), val (realSymbols t)[j] ≠ none) →
      dec32 t = .error (0x00010000 ||| BitVec.ofNat 32 i)) ∧
    ((∀ c ∈ realSymbols t, val c ≠ none) → (realSymbols t).length % 8 ∈ [1, 3, 6] →
      dec32 t = .error (0x00020000 ||| BitVec.ofNat 32 (realSymbols t).length))

/-- A text with no invalid character and a good last group decodes. The result has the length the table gives, which
fits BIN, and its byte `i` is the bits 8i to 8i + 7, from the most significant, of the symbols' values laid end to end,
5 bits each; bits left over after the last byte are ignored (`40_base32.md` R127, R128, R131). -/
def Obligations.DecodedLength : Prop :=
  ∀ t : List Byte, (∀ c ∈ realSymbols t, val c ≠ none) → (realSymbols t).length % 8 ∈ [0, 2, 4, 5, 7] →
    ∃ out, dec32 t = .ok out ∧
      out.length = (realSymbols t).length * 5 / 8 ∧
      (t.length ≤ 416 → out.length ≤ 260) ∧
      ∀ i (h : i < out.length), out[i].toNat =
        (realSymbols t).foldl (fun v c => v * 32 + (val c).getD 0) 0
          / 2 ^ (5 * (realSymbols t).length - 8 * (i + 1)) % 256

/-- Decoding undoes encoding for every byte string (`40_base32.md` R130). -/
def Obligations.DecodeInvertsEncode : Prop := ∀ b : List Byte, dec32 (enc32 b) = .ok b

/-- Letter case does not matter to the decoder (`40_base32.md` R121, R130). -/
def Obligations.DecodeIgnoresCase : Prop :=
  ∀ t : List Byte,
    dec32 (t.map fun c => if 0x41 ≤ c.toNat ∧ c.toNat ≤ 0x5A then c + 0x20 else c) = dec32 t

/-- The number of trailing `=` does not matter to the decoder (`40_base32.md` R130). -/
def Obligations.DecodeIgnoresPadCount : Prop :=
  ∀ (t : List Byte) (k : Nat), dec32 (t ++ List.replicate k 0x3D) = dec32 t

/-- B32ENC completes and cannot fail: TXT and TXTLEN hold the text, no other register and no other byte changes
(`40_base32.md` R124). -/
def Obligations.B32encEncodesBin : Prop :=
  ∀ s : State, s.Inv → ∃ t, exec .b32enc s = .next t ∧
    t.bytes .txt t.txtlen.toNat = enc32 (s.bytes .bin s.binlen.toNat) ∧
    t.txtlen.toNat = 8 * ((s.binlen.toNat + 4) / 5) ∧ t.txtlen.toNat ≤ 416 ∧
    t.busy = false ∧ t.done = true ∧
    { t with txtlen := s.txtlen, mem := s.mem, busy := s.busy, done := s.done } = s ∧
    (∀ a, (∀ i, i < t.txtlen.toNat → a ≠ Buffer.txt.base + i) → t.readByte a = s.readByte a)

/-- B32DEC completes: on a good text BIN and BINLEN hold the bytes and nothing else changes; on a bad one InvalidEncoding
is recorded with its detail and nothing is written (`40_base32.md` R129). -/
def Obligations.B32decDecodesTxt : Prop :=
  ∀ s : State, s.Inv → ∃ t, exec .b32dec s = .next t ∧ t.busy = false ∧ t.done = true ∧
    (∀ out, dec32 (s.bytes .txt s.txtlen.toNat) = .ok out →
      t.bytes .bin t.binlen.toNat = out ∧ t.binlen.toNat = out.length ∧
      { t with binlen := s.binlen, mem := s.mem, busy := s.busy, done := s.done } = s ∧
      (∀ a, (∀ i, i < out.length → a ≠ Buffer.bin.base + i) → t.readByte a = s.readByte a)) ∧
    (∀ info, dec32 (s.bytes .txt s.txtlen.toNat) = .error info →
      t = { s with busy := false, done := true, err := true, errcode := 0x01, errinfo := info })

/-- B32ENC followed by B32DEC restores `BIN[0..BINLEN)` and BINLEN, with no error (`40_base32.md` R130). -/
def Obligations.B32decAfterB32encRestoresBin : Prop :=
  ∀ s : State, s.Inv → ∃ t u, exec .b32enc s = .next t ∧ exec .b32dec t = .next u ∧
    u.binlen = s.binlen ∧ u.bytes .bin u.binlen.toNat = s.bytes .bin s.binlen.toNat ∧
    u.err = s.err ∧ u.errcode = s.errcode ∧ u.errinfo = s.errinfo

/-! ### ERASE -/

/-- `Scrub` takes the first draw that differs from the old byte and discards those before it
(`41_erase.md` R152). -/
def Obligations.ScrubTakesTheFirstDifferingDraw : Prop :=
  ∀ (old r : Byte) (draws rest : List Byte),
    scrub old draws = some (r, rest) ↔ ∃ k, draws = List.replicate k old ++ r :: rest ∧ r ≠ old

/-- ERASE, when the delivered draws suffice for every selected byte in order: it completes, the selected buffers hold the
scrubbed bytes over their whole capacity, each different from the byte it replaces, their lengths (and TRUNCVAL and CODE
with PWD) are 0, exactly the draws taken are gone, and nothing that is not selected changes
(`41_erase.md` R153, R154). That draws are a list, taken from its front in one step, what is left staying, is the
model's choice (log entry 6, DESIGN CHOICE). -/
def Obligations.EraseOverwritesSelected : Prop :=
  ∀ (sel : BitVec 4) (s : State) (news left : List Byte),
    scrubAll ((Buffer.all.filter fun b => sel.getLsbD b.selBit).flatMap fun b => s.bytes b b.capacity)
      s.draws = some (news, left) →
    ∃ t, exec (.erase sel) s = .next t ∧ t.busy = false ∧ t.done = true ∧
      ((Buffer.all.filter fun b => sel.getLsbD b.selBit).flatMap fun b => t.bytes b b.capacity) = news ∧
      (∀ b : Buffer, sel.getLsbD b.selBit = true → ∀ i, i < b.capacity → t.byte b i ≠ s.byte b i) ∧
      t.binlen = (if sel.getLsbD 0 then 0 else s.binlen) ∧
      t.txtlen = (if sel.getLsbD 1 then 0 else s.txtlen) ∧
      t.diglen = (if sel.getLsbD 2 then 0 else s.diglen) ∧
      t.pwdlen = (if sel.getLsbD 3 then 0 else s.pwdlen) ∧
      t.truncval = (if sel.getLsbD 3 then 0 else s.truncval) ∧
      t.code = (if sel.getLsbD 3 then 0 else s.code) ∧
      (∀ a, (∀ b : Buffer, sel.getLsbD b.selBit = true → ∀ i, i < b.capacity → a ≠ b.base + i) →
        t.readByte a = s.readByte a) ∧
      { t with binlen := s.binlen, txtlen := s.txtlen, diglen := s.diglen, pwdlen := s.pwdlen,
               truncval := s.truncval, code := s.code, mem := s.mem, draws := s.draws,
               busy := s.busy, done := s.done } = s ∧
      t.draws = left

/-- ERASE waits while the delivered draws do not suffice: nothing at all changes (`41_erase.md` R156). That it takes no
draw while it waits is the model's choice (log entry 6, DESIGN CHOICE). -/
def Obligations.EraseWaitsForDraws : Prop :=
  ∀ (sel : BitVec 4) (s : State),
    scrubAll ((Buffer.all.filter fun b => sel.getLsbD b.selBit).flatMap fun b => s.bytes b b.capacity)
      s.draws = none →
    exec (.erase sel) s = .next s

/-- When the draws suffice for a list of bytes: they are, byte by byte, copies of the old byte and then a differing one
(`41_erase.md` R152, R153). -/
def Obligations.DrawsThatSuffice : Prop :=
  ∀ (olds draws news left : List Byte),
    scrubAll olds draws = some (news, left) ↔
      ∃ ks : List Nat, ks.length = olds.length ∧ List.Forall₂ (fun o n => n ≠ o) olds news ∧
        draws = ((ks.zip (olds.zip news)).flatMap fun x => List.replicate x.1 x.2.1 ++ [x.2.2]) ++ left

/-- ERASE with SEL = 0 draws nothing, changes no buffer and no length, and completes (`41_erase.md` R155). -/
def Obligations.EraseNoneOnlyCompletes : Prop :=
  ∀ s : State, exec (.erase 0) s = .next { s with busy := false, done := true }

/-- After ERASE ALL nothing that depends on the secret is left: two states that differ in buffers, lengths, TRUNCVAL and
CODE, given the same draws and none of them discarded, come to the same state (`41_erase.md` R158). The residue, which
no listed byte depends on any more, is the one difference left. Residue and draws are the model's own fields (log
entries 4 and 6, DESIGN CHOICE). -/
def Obligations.EraseAllForgetsTheSecret : Prop :=
  ∀ s u : State, s.mem.wf = true → u.mem.wf = true →
    (∀ c ∈ s.mem, mapped c.1 = true) → (∀ c ∈ u.mem, mapped c.1 = true) →
    { u with mem := s.mem, binlen := s.binlen, txtlen := s.txtlen, diglen := s.diglen, pwdlen := s.pwdlen,
             truncval := s.truncval, code := s.code, residue := s.residue } = s →
    List.Forall₂ (fun o d => d ≠ o) (Buffer.all.flatMap fun b => s.bytes b b.capacity) (s.draws.take 750) →
    List.Forall₂ (fun o d => d ≠ o) (Buffer.all.flatMap fun b => u.bytes b b.capacity) (s.draws.take 750) →
    ∃ t, exec (.erase 0b1111) s = .next t ∧ exec (.erase 0b1111) u = .next { t with residue := u.residue } ∧
      (∀ b : Buffer, ∀ i, i < b.capacity → ∃ x, t.mem.lookup (b.base + i) = some x)

/-! ### Truncation -/

/-- Dynamic truncation of a digest of a legal length, as arithmetic on its bytes: the offset is the last byte's low
nibble, the four bytes lie below the last one, bit 31 is dropped (`42_truncate.md` R170). -/
def Obligations.TruncReadsFourBytesAtTheOffset : Prop :=
  ∀ (d : List Byte) (n : Nat), d.length = n → n ∈ [20, 32, 64] →
    ∃ o, o = (d.getD (n - 1) 0).toNat % 16 ∧ o + 3 < n - 1 ∧
      (trunc d).toNat =
        ((d.getD o 0).toNat * 2 ^ 24 + (d.getD (o + 1) 0).toNat * 2 ^ 16
          + (d.getD (o + 2) 0).toNat * 2 ^ 8 + (d.getD (o + 3) 0).toNat) % 2 ^ 31

/-- Rendering: the code is `value mod 10^N`, spelled by exactly N ASCII digits, leading zeros kept
(`42_truncate.md` R171, R173). -/
def Obligations.RenderSpellsTheCode : Prop :=
  ∀ (value n : Nat),
    renderCode value n = value % 10 ^ n ∧
    (renderDigits (renderCode value n) n).length = n ∧
    (∀ c ∈ renderDigits (renderCode value n) n, 0x30 ≤ c.toNat ∧ c.toNat ≤ 0x39) ∧
    (renderDigits (renderCode value n) n).foldl (fun x c => x * 10 + (c.toNat - 0x30)) 0 = value % 10 ^ n

/-- TRUNC with a digest present completes: TRUNCVAL, CODE, PWD and PWDLEN hold the results, nothing else changes; without
one it records InvalidLength with ERRINFO 0 and writes nothing (`42_truncate.md` R172). -/
def Obligations.TruncRendersTheDigest : Prop :=
  ∀ s : State, s.Inv →
    (s.diglen ≠ 0 → ∃ t, exec .trunc s = .next t ∧
      t.truncval = trunc (s.bytes .digest s.diglen.toNat) ∧
      t.code.toNat = (trunc (s.bytes .digest s.diglen.toNat)).toNat % 10 ^ s.digits.toNat ∧
      t.pwdlen = s.digits ∧
      t.bytes .pwd s.digits.toNat = renderDigits t.code.toNat s.digits.toNat ∧
      t.busy = false ∧ t.done = true ∧
      { t with truncval := s.truncval, code := s.code, pwdlen := s.pwdlen, mem := s.mem,
               busy := s.busy, done := s.done } = s ∧
      (∀ a, (∀ i, i < s.digits.toNat → a ≠ Buffer.pwd.base + i) → t.readByte a = s.readByte a)) ∧
    (s.diglen = 0 → exec .trunc s =
      .next { s with busy := false, done := true, err := true, errcode := 0x11, errinfo := 0 })

/-! ### Hash functions -/

/-- Padding: the message, 0x80, the fewest zero bytes that fill the last block, the length in bits
(`43_sha.md` R191). -/
def Obligations.PaddingFillsTheLastBlock : Prop :=
  ∀ (m : List Byte) (B lb : Nat), (B = 64 ∧ lb = 8) ∨ (B = 128 ∧ lb = 16) →
    ∃ k, padMessage m B lb = m ++ [0x80] ++ List.replicate k 0 ++ beBytes lb (8 * m.length) ∧
      (m.length + 1 + k + lb) % B = 0 ∧ (∀ j, (m.length + 1 + j + lb) % B = 0 → k ≤ j) ∧
      (padMessage m B lb).length % B = 0 ∧ B ≤ (padMessage m B lb).length

/-- The digest lengths of the three functions, for every message (`43_sha.md` R190). -/
def Obligations.DigestLengths : Prop :=
  ∀ m : List Byte,
    (hashOf .sha1 m).length = 20 ∧ (hashOf .sha256 m).length = 32 ∧
    (hashOf .sha512 m).length = 64

/-- The message schedules: the first sixteen words are the block's, every later word is the recurrence of its function
(`43_sha.md` R194, R198, R202). -/
def Obligations.ScheduleRecurrences : Prop :=
  (∀ block : List Byte, block.length = 64 →
    ∃ W : List Word, W = (extendSchedule sha1Next 64 (blockWords 32 block).reverse).reverse ∧ W.length = 80 ∧
      (∀ t, t < 16 → W.getD t 0 = BitVec.ofNat 32 (be (slice block (4 * t) 4))) ∧
      (∀ t, 16 ≤ t → t < 80 → W.getD t 0 =
        rotl (W.getD (t - 3) 0 ^^^ W.getD (t - 8) 0 ^^^ W.getD (t - 14) 0 ^^^ W.getD (t - 16) 0) 1)) ∧
  (∀ block : List Byte, block.length = 64 →
    ∃ W : List Word, W = (extendSchedule (sha2Next sha256Params) 48 (blockWords 32 block).reverse).reverse ∧
      W.length = 64 ∧ (∀ t, t < 16 → W.getD t 0 = BitVec.ofNat 32 (be (slice block (4 * t) 4))) ∧
      (∀ t, 16 ≤ t → t < 64 → W.getD t 0 =
        sha256Params.ssig1 (W.getD (t - 2) 0) + W.getD (t - 7) 0 + sha256Params.ssig0 (W.getD (t - 15) 0)
          + W.getD (t - 16) 0)) ∧
  (∀ block : List Byte, block.length = 128 →
    ∃ W : List DWord, W = (extendSchedule (sha2Next sha512Params) 64 (blockWords 64 block).reverse).reverse ∧
      W.length = 80 ∧ (∀ t, t < 16 → W.getD t 0 = BitVec.ofNat 64 (be (slice block (8 * t) 8))) ∧
      (∀ t, 16 ≤ t → t < 80 → W.getD t 0 =
        sha512Params.ssig1 (W.getD (t - 2) 0) + W.getD (t - 7) 0 + sha512Params.ssig0 (W.getD (t - 15) 0)
          + W.getD (t - 16) 0))

/-- Compression: the working variables start as the chaining value, go through a round for every schedule word, and are
added to it (`43_sha.md` R192 to R194, R197, R198, R201, R202). The SHA-2 round constants are
stated in `HashesChainTheirBlocks`. -/
def Obligations.CompressionRunsItsRounds : Prop :=
  (∀ (h : Chain5) (M : List Byte), M.length = 64 → ∃ (W : Nat → Word) (v : Nat → Chain5),
    (∀ t, t < 16 → W t = BitVec.ofNat 32 (be (slice M (4 * t) 4))) ∧
    (∀ t, 16 ≤ t → t < 80 → W t = (W (t - 3) ^^^ W (t - 8) ^^^ W (t - 14) ^^^ W (t - 16)).rotateLeft 1) ∧
    v 0 = h ∧
    (∀ t, t < 80 → ∀ a b c d e : Word, v t = ⟨a, b, c, d, e⟩ →
      v (t + 1) =
        ⟨a.rotateLeft 5
          + (if t ≤ 19 then (b &&& c) ||| (~~~b &&& d) else if t ≤ 39 then b ^^^ c ^^^ d
             else if t ≤ 59 then (b &&& c) ||| (b &&& d) ||| (c &&& d) else b ^^^ c ^^^ d)
          + e
          + (if t ≤ 19 then 0x5A827999 else if t ≤ 39 then 0x6ED9EBA1 else if t ≤ 59 then 0x8F1BBCDC else 0xCA62C1D6)
          + W t,
         a, b.rotateLeft 30, c, d⟩) ∧
    sha1Compress h M =
      ⟨h.a + (v 80).a, h.b + (v 80).b, h.c + (v 80).c, h.d + (v 80).d, h.e + (v 80).e⟩) ∧
  (∀ (H : Chain8 32) (M : List Byte), M.length = 64 → ∃ (W : Nat → Word) (v : Nat → Chain8 32),
    (∀ t, t < 16 → W t = BitVec.ofNat 32 (be (slice M (4 * t) 4))) ∧
    (∀ t, 16 ≤ t → t < 64 → W t =
      ((W (t - 2)).rotateRight 17 ^^^ (W (t - 2)).rotateRight 19 ^^^ (W (t - 2) >>> 10)) + W (t - 7)
        + ((W (t - 15)).rotateRight 7 ^^^ (W (t - 15)).rotateRight 18 ^^^ (W (t - 15) >>> 3)) + W (t - 16)) ∧
    v 0 = H ∧
    (∀ t, t < 64 → ∀ a b c d e f g h T1 T2 : Word, v t = ⟨a, b, c, d, e, f, g, h⟩ →
      T1 = h + (e.rotateRight 6 ^^^ e.rotateRight 11 ^^^ e.rotateRight 25) + ((e &&& f) ^^^ (~~~e &&& g))
        + k256.getD t 0 + W t →
      T2 = (a.rotateRight 2 ^^^ a.rotateRight 13 ^^^ a.rotateRight 22)
        + ((a &&& b) ^^^ (a &&& c) ^^^ (b &&& c)) →
      v (t + 1) = ⟨T1 + T2, a, b, c, d + T1, e, f, g⟩) ∧
    sha2Compress sha256Params H M =
      ⟨H.a + (v 64).a, H.b + (v 64).b, H.c + (v 64).c, H.d + (v 64).d,
       H.e + (v 64).e, H.f + (v 64).f, H.g + (v 64).g, H.h + (v 64).h⟩) ∧
  (∀ (H : Chain8 64) (M : List Byte), M.length = 128 → ∃ (W : Nat → DWord) (v : Nat → Chain8 64),
    (∀ t, t < 16 → W t = BitVec.ofNat 64 (be (slice M (8 * t) 8))) ∧
    (∀ t, 16 ≤ t → t < 80 → W t =
      ((W (t - 2)).rotateRight 19 ^^^ (W (t - 2)).rotateRight 61 ^^^ (W (t - 2) >>> 6)) + W (t - 7)
        + ((W (t - 15)).rotateRight 1 ^^^ (W (t - 15)).rotateRight 8 ^^^ (W (t - 15) >>> 7)) + W (t - 16)) ∧
    v 0 = H ∧
    (∀ t, t < 80 → ∀ a b c d e f g h T1 T2 : DWord, v t = ⟨a, b, c, d, e, f, g, h⟩ →
      T1 = h + (e.rotateRight 14 ^^^ e.rotateRight 18 ^^^ e.rotateRight 41) + ((e &&& f) ^^^ (~~~e &&& g))
        + k512.getD t 0 + W t →
      T2 = (a.rotateRight 28 ^^^ a.rotateRight 34 ^^^ a.rotateRight 39)
        + ((a &&& b) ^^^ (a &&& c) ^^^ (b &&& c)) →
      v (t + 1) = ⟨T1 + T2, a, b, c, d + T1, e, f, g⟩) ∧
    sha2Compress sha512Params H M =
      ⟨H.a + (v 80).a, H.b + (v 80).b, H.c + (v 80).c, H.d + (v 80).d,
       H.e + (v 80).e, H.f + (v 80).f, H.g + (v 80).g, H.h + (v 80).h⟩)

/-- The hash functions: from the initial chaining value, through the blocks of the padded message in order, to the bytes
of the last chaining value (`43_sha.md` R192, R195, R196, R199, R200, R203). The round constants of SHA-256 and SHA-512
are the first 32 and 64 bits of the fractional parts of the cube roots of the first primes (R196, R200). -/
def Obligations.HashesChainTheirBlocks : Prop :=
  (∀ m : List Byte, ∃ H : Nat → Chain5,
    H 0 = ⟨0x67452301, 0xEFCDAB89, 0x98BADCFE, 0x10325476, 0xC3D2E1F0⟩ ∧
    (∀ j, j < (padMessage m 64 8).length / 64 →
      H (j + 1) = sha1Compress (H j) (slice (padMessage m 64 8) (64 * j) 64)) ∧
    ∀ h, h = H ((padMessage m 64 8).length / 64) →
      hashOf .sha1 m = [h.a, h.b, h.c, h.d, h.e].flatMap fun x => beBytes 4 x.toNat) ∧
  (∀ m : List Byte, ∃ H : Nat → Chain8 32,
    H 0 = ⟨0x6A09E667, 0xBB67AE85, 0x3C6EF372, 0xA54FF53A, 0x510E527F, 0x9B05688C, 0x1F83D9AB, 0x5BE0CD19⟩ ∧
    (∀ j, j < (padMessage m 64 8).length / 64 →
      H (j + 1) = sha2Compress sha256Params (H j) (slice (padMessage m 64 8) (64 * j) 64)) ∧
    ∀ h, h = H ((padMessage m 64 8).length / 64) →
      hashOf .sha256 m = [h.a, h.b, h.c, h.d, h.e, h.f, h.g, h.h].flatMap fun x => beBytes 4 x.toNat) ∧
  (∀ m : List Byte, ∃ H : Nat → Chain8 64,
    H 0 = ⟨0x6A09E667F3BCC908, 0xBB67AE8584CAA73B, 0x3C6EF372FE94F82B, 0xA54FF53A5F1D36F1,
           0x510E527FADE682D1, 0x9B05688C2B3E6C1F, 0x1F83D9ABFB41BD6B, 0x5BE0CD19137E2179⟩ ∧
    (∀ j, j < (padMessage m 128 16).length / 128 →
      H (j + 1) = sha2Compress sha512Params (H j) (slice (padMessage m 128 16) (128 * j) 128)) ∧
    ∀ h, h = H ((padMessage m 128 16).length / 128) →
      hashOf .sha512 m = [h.a, h.b, h.c, h.d, h.e, h.f, h.g, h.h].flatMap fun x => beBytes 8 x.toNat) ∧
  (∀ primes : List Nat,
    primes = (List.range 410).filter (fun p => decide (2 ≤ p ∧ ∀ d, d < p → 2 ≤ d → p % d ≠ 0)) →
    k256.length = 64 ∧ k512.length = 80 ∧ primes.length = 80 ∧
    (∀ t, t < 64 → ∃ q, (q * 2 ^ 32 + (k256.getD t 0).toNat) ^ 3 ≤ primes.getD t 0 * 2 ^ 96 ∧
      primes.getD t 0 * 2 ^ 96 < (q * 2 ^ 32 + (k256.getD t 0).toNat + 1) ^ 3) ∧
    (∀ t, t < 80 → ∃ q, (q * 2 ^ 64 + (k512.getD t 0).toNat) ^ 3 ≤ primes.getD t 0 * 2 ^ 192 ∧
      primes.getD t 0 * 2 ^ 192 < (q * 2 ^ 64 + (k512.getD t 0).toNat + 1) ^ 3))

/-! ### HMAC and HOTP -/

/-- The counter's eight bytes, most significant first, CTR_HI above CTR_LO (`44_hmac_hotp.md` R230). -/
def Obligations.CounterBytesAreBigEndian : Prop :=
  ∀ s : State,
    s.counterBytes = beBytes 4 s.ctrHi.toNat ++ beBytes 4 s.ctrLo.toNat ∧
    be s.counterBytes = s.ctrHi.toNat * 2 ^ 32 + s.ctrLo.toNat ∧
    s.counterBytes[0]? = some (s.ctrHi.extractLsb' 24 8) ∧ s.counterBytes[7]? = some (s.ctrLo.extractLsb' 0 8)

/-- HMAC: the key, hashed first if it is longer than a block, is padded with zeros to a block; the digest is the hash of
its bytes with 0x5C and of the hash of its bytes with 0x36 and the message. So a key longer than a block acts as its
digest, and zero bytes after a key that fits change nothing (`44_hmac_hotp.md` R231). -/
def Obligations.HmacKeyRules : Prop :=
  ∀ (alg : HashAlg) (key msg : List Byte) (B : Nat), B = (match alg with | .sha1 => 64 | .sha256 => 64 | .sha512 => 128) →
    (∃ k1 k0 ipad opad : List Byte,
      k1 = (if key.length > B then hashOf alg key else key) ∧
      k0 = k1 ++ List.replicate (B - k1.length) 0 ∧
      k0.length = B ∧ ipad.length = B ∧ opad.length = B ∧
      (∀ i, i < B → ipad.getD i 0 = k0.getD i 0 ^^^ 0x36 ∧ opad.getD i 0 = k0.getD i 0 ^^^ 0x5C) ∧
      hmac alg key msg = hashOf alg (opad ++ hashOf alg (ipad ++ msg))) ∧
    (B < key.length → hmac alg key msg = hmac alg (hashOf alg key) msg) ∧
    (∀ k, key.length + k ≤ B → hmac alg (key ++ List.replicate k 0) msg = hmac alg key msg)

/-- HMAC under a key of at least 16 bytes completes: DIGEST and DIGLEN hold the digest of the counter's bytes, nothing
else changes; under a shorter one it records InvalidSecret with BINLEN in ERRINFO and writes nothing
(`44_hmac_hotp.md` R232, R233). -/
def Obligations.HmacDigestsTheCounter : Prop :=
  ∀ s : State, s.Inv →
    (16 ≤ s.binlen.toNat → ∃ t, exec .hmac s = .next t ∧
      t.bytes .digest t.diglen.toNat =
        hmac s.alg (s.bytes .bin s.binlen.toNat) (beBytes 8 (s.ctrHi.toNat * 2 ^ 32 + s.ctrLo.toNat)) ∧
      t.diglen = (match s.alg with | .sha1 => 20 | .sha256 => 32 | .sha512 => 64) ∧
      t.busy = false ∧ t.done = true ∧
      { t with diglen := s.diglen, mem := s.mem, busy := s.busy, done := s.done } = s ∧
      (∀ a, (∀ i, i < t.diglen.toNat → a ≠ Buffer.digest.base + i) → t.readByte a = s.readByte a)) ∧
    (s.binlen.toNat < 16 → exec .hmac s =
      .next { s with busy := false, done := true, err := true, errcode := 0x02, errinfo := s.binlen })

/-- A secret of fewer than 16 bytes is rejected by HMAC and by HOTP, one of 16 or more by neither: ERR, ERRCODE and
ERRINFO stay as they were (`44_hmac_hotp.md` R234). -/
def Obligations.ShortSecretIsRejected : Prop :=
  ∀ s : State,
    (s.binlen.toNat < 16 →
      exec .hmac s =
        .next { s with busy := false, done := true, err := true, errcode := 0x02, errinfo := s.binlen } ∧
      exec .hotp s =
        .next { s with busy := false, done := true, err := true, errcode := 0x02, errinfo := s.binlen }) ∧
    (16 ≤ s.binlen.toNat →
      (∃ t, exec .hmac s = .next t ∧ t.err = s.err ∧ t.errcode = s.errcode ∧ t.errinfo = s.errinfo) ∧
      (∃ t, exec .hotp s = .next t ∧ t.err = s.err ∧ t.errcode = s.errcode ∧ t.errinfo = s.errinfo))

/-- HOTP under a key of at least 16 bytes completes: all six outputs hold their results, nothing else changes; under a
shorter one it records InvalidSecret with BINLEN in ERRINFO and writes nothing (`44_hmac_hotp.md` R240). -/
def Obligations.HotpTurnsCounterIntoPassword : Prop :=
  ∀ s : State, s.Inv →
    (16 ≤ s.binlen.toNat → ∃ t d, exec .hotp s = .next t ∧
      d = hmac s.alg (s.bytes .bin s.binlen.toNat) (beBytes 8 (s.ctrHi.toNat * 2 ^ 32 + s.ctrLo.toNat)) ∧
      t.bytes .digest t.diglen.toNat = d ∧
      t.diglen = (match s.alg with | .sha1 => 20 | .sha256 => 32 | .sha512 => 64) ∧
      t.truncval = trunc d ∧
      t.code.toNat = (trunc d).toNat % 10 ^ s.digits.toNat ∧
      t.pwdlen = s.digits ∧
      t.bytes .pwd s.digits.toNat = renderDigits t.code.toNat s.digits.toNat ∧
      t.busy = false ∧ t.done = true ∧
      { t with diglen := s.diglen, truncval := s.truncval, code := s.code, pwdlen := s.pwdlen, mem := s.mem,
               busy := s.busy, done := s.done } = s ∧
      (∀ a, (∀ i, i < t.diglen.toNat → a ≠ Buffer.digest.base + i) →
        (∀ i, i < s.digits.toNat → a ≠ Buffer.pwd.base + i) → t.readByte a = s.readByte a)) ∧
    (s.binlen.toNat < 16 → exec .hotp s =
      .next { s with busy := false, done := true, err := true, errcode := 0x02, errinfo := s.binlen })

/-- HOTP is HMAC followed by TRUNC, in every register and every byte, when the key is long enough, and a failed HMAC
alone when it is not (`44_hmac_hotp.md` R241). -/
def Obligations.HotpIsHmacThenTrunc : Prop :=
  ∀ s : State, s.Inv →
    (16 ≤ s.binlen.toNat → ∃ t u, exec .hmac s = .next t ∧ exec .trunc t = .next u ∧ exec .hotp s = .next u) ∧
    (s.binlen.toNat < 16 → exec .hotp s = exec .hmac s)

/-- The digest depends on ALG, the key bytes and the counter alone (`44_hmac_hotp.md` R236). -/
def Obligations.HmacDependsOnItsOperandsAlone : Prop :=
  ∀ s u : State, s.Inv → u.Inv → 16 ≤ s.binlen.toNat → u.alg = s.alg → u.binlen = s.binlen →
    u.ctrHi = s.ctrHi → u.ctrLo = s.ctrLo → (∀ i, i < s.binlen.toNat → u.byte .bin i = s.byte .bin i) →
    ∃ t v, exec .hmac s = .next t ∧ exec .hmac u = .next v ∧ v.diglen = t.diglen ∧
      v.bytes .digest v.diglen.toNat = t.bytes .digest t.diglen.toNat
end

