-- ==== Sys2Proof/Laws/Bytes.lean ====
section
/-! SUPPORT. The laws of byte strings: big-endian conversion and cutting into pieces. -/

namespace Sys2Proof.Machine

/-! ### `be` and `beBytes` -/

theorem foldl_be (v : Nat) (s : List Byte) :
    s.foldl (fun v b => v * 256 + b.toNat) v = v * 256 ^ s.length + be s := by
  induction s generalizing v with
  | nil => simp [be]
  | cons b s ih =>
    simp only [be, List.foldl_cons, List.length_cons, Nat.zero_mul, Nat.zero_add]
    rw [ih, ih b.toNat]
    ring

@[simp] theorem be_nil : be [] = 0 := rfl

theorem be_cons (b : Byte) (s : List Byte) : be (b :: s) = b.toNat * 256 ^ s.length + be s := by
  simp only [be, List.foldl_cons, Nat.zero_mul, Nat.zero_add]
  exact foldl_be _ _

theorem be_append (s t : List Byte) : be (s ++ t) = be s * 256 ^ t.length + be t := by
  simp only [be, List.foldl_append]
  exact foldl_be _ _

theorem be_lt (s : List Byte) : be s < 256 ^ s.length := by
  induction s with
  | nil => simp
  | cons b s ih =>
    rw [be_cons, List.length_cons, pow_succ]
    have := b.isLt
    nlinarith [Nat.pos_of_ne_zero (pow_ne_zero s.length (by norm_num : (256 : Nat) ≠ 0))]

theorem be_replicate_zero (k : Nat) : be (List.replicate k 0#8) = 0 := by
  induction k with
  | zero => rfl
  | succ k ih => simp [List.replicate_succ, be_cons, ih]

@[simp] theorem beBytes_length (n v : Nat) : (beBytes n v).length = n := by simp [beBytes]

@[simp] theorem beBytes_zero (v : Nat) : beBytes 0 v = [] := rfl

theorem beBytes_succ (n v : Nat) : beBytes (n + 1) v = BitVec.ofNat 8 (v / 256 ^ n) :: beBytes n v := by
  simp only [beBytes, List.range_succ_eq_map, List.map_cons, List.map_map]
  congr 1
  · rw [show (256 : Nat) = 2 ^ 8 by norm_num, ← pow_mul]
    simp
  · refine List.map_congr_left fun i hi => ?_
    simp only [Function.comp]
    congr 4
    omega

/-- Encoding and reading back keeps as many bytes as were encoded. -/
theorem be_beBytes (n v : Nat) : be (beBytes n v) = v % 256 ^ n := by
  induction n generalizing v with
  | zero => simp [Nat.mod_one]
  | succ n ih =>
    rw [beBytes_succ, be_cons, ih, beBytes_length, pow_succ]
    simp only [BitVec.toNat_ofNat]
    have h := Nat.mod_mul (a := 256 ^ n) (b := 256) (x := v)
    rw [h]
    norm_num
    ring

/-- Reading and encoding back gives the byte string. -/
theorem beBytes_be (s : List Byte) (x : Nat) : beBytes s.length (x * 256 ^ s.length + be s) = s := by
  induction s generalizing x with
  | nil => rfl
  | cons b s ih =>
    rw [List.length_cons, beBytes_succ, be_cons]
    congr 1
    · have h1 := be_lt s
      have h2 : x * 256 ^ (s.length + 1) + (b.toNat * 256 ^ s.length + be s)
          = be s + 256 ^ s.length * (x * 256 + b.toNat) := by ring
      rw [h2, Nat.add_mul_div_left _ _ (by positivity), Nat.div_eq_of_lt h1]
      apply BitVec.eq_of_toNat_eq
      have := b.isLt
      simp only [BitVec.toNat_ofNat]
      omega
    · have h2 : x * 256 ^ (s.length + 1) + (b.toNat * 256 ^ s.length + be s)
          = (x * 256 + b.toNat) * 256 ^ s.length + be s := by ring
      rw [h2]
      exact ih _

theorem beBytes_append (n m u v : Nat) (h : v < 256 ^ m) :
    beBytes (n + m) (u * 256 ^ m + v) = beBytes n u ++ beBytes m v := by
  induction n with
  | zero =>
    simp only [Nat.zero_add, beBytes_zero, List.nil_append]
    have h1 := beBytes_be (beBytes m v) u
    rwa [beBytes_length, be_beBytes, Nat.mod_eq_of_lt h] at h1
  | succ n ih =>
    rw [show n + 1 + m = n + m + 1 by omega, beBytes_succ, beBytes_succ, ih, List.cons_append]
    congr 2
    rw [pow_add, mul_comm (256 ^ n), ← Nat.div_div_eq_div_mul]
    congr 1
    rw [mul_comm u, Nat.mul_add_div (by positivity), Nat.div_eq_of_lt h, Nat.add_zero]

/-! ### `chunks` -/

theorem chunksFuel_of_length_le {α : Type} {k : Nat} (hk : 0 < k) (fuel : Nat) (xs : List α)
    (h : xs.length ≤ fuel) : chunksFuel k fuel xs = chunks k xs := by
  induction fuel using Nat.strong_induction_on generalizing xs with
  | _ fuel ih =>
    cases xs with
    | nil => cases fuel <;> rfl
    | cons x xs =>
      cases fuel with
      | zero => simp at h
      | succ fuel =>
        simp only [chunks, chunksFuel, List.length_cons]
        have h1 : ((x :: xs).drop k).length ≤ xs.length := by
          simp only [List.length_drop, List.length_cons]; omega
        simp only [List.length_cons] at h
        rw [ih fuel (by omega) _ (by omega)]
        rcases Nat.lt_or_ge xs.length (fuel + 1) with h2 | h2
        · rw [ih xs.length h2 _ h1]
        · omega

@[simp] theorem chunks_nil {α : Type} (k : Nat) : chunks k ([] : List α) = [] := rfl

/-- A piece is cut off the front. -/
theorem chunks_of_ne_nil {α : Type} {k : Nat} (hk : 0 < k) {xs : List α} (h : xs ≠ []) :
    chunks k xs = xs.take k :: chunks k (xs.drop k) := by
  cases xs with
  | nil => exact absurd rfl h
  | cons x xs =>
    simp only [chunks, chunksFuel, List.length_cons]
    congr 1
    refine chunksFuel_of_length_le hk _ _ ?_
    simp only [List.length_drop, List.length_cons]
    omega

/-- The pieces, put together again, are the whole. -/
theorem chunks_flatten {α : Type} {k : Nat} (hk : 0 < k) (xs : List α) : (chunks k xs).flatten = xs := by
  induction h : xs.length using Nat.strong_induction_on generalizing xs with
  | _ n ih =>
    by_cases hx : xs = []
    · simp [hx]
    · rw [chunks_of_ne_nil hk hx, List.flatten_cons,
        ih _ (by rw [List.length_drop, ← h]; have := List.length_pos_iff.mpr hx; omega) _ rfl,
        List.take_append_drop]

theorem chunks_append {α : Type} {k : Nat} (hk : 0 < k) (xs ys : List α) (h : xs.length = k) :
    chunks k (xs ++ ys) = xs :: chunks k ys := by
  have h1 : xs ++ ys ≠ [] := by
    intro h2
    have : xs = [] := (List.append_eq_nil_iff.mp h2).1
    simp [this] at h
    omega
  rw [chunks_of_ne_nil hk h1]
  simp [← h]

theorem chunks_singleton {α : Type} {k : Nat} {xs : List α} (h0 : xs ≠ []) (h : xs.length ≤ k) :
    chunks k xs = [xs] := by
  have hk : 0 < k := lt_of_lt_of_le (List.length_pos_iff.mpr h0) h
  rw [chunks_of_ne_nil hk h0, List.take_of_length_le h, List.drop_of_length_le h, chunks_nil]

theorem getElem?_chunks {α : Type} {k : Nat} (hk : 0 < k) (xs : List α) (i : Nat) (h : k * i < xs.length) :
    (chunks k xs)[i]? = some ((xs.drop (k * i)).take k) := by
  induction i generalizing xs with
  | zero =>
    have : xs ≠ [] := by rintro rfl; simp at h
    simp [chunks_of_ne_nil hk this]
  | succ i ih =>
    have hx : xs ≠ [] := by rintro rfl; simp at h
    rw [chunks_of_ne_nil hk hx, List.getElem?_cons_succ, ih _ (by rw [List.length_drop]; rw [Nat.mul_succ] at h; omega),
      List.drop_drop]
    congr 3
    ring

theorem chunks_length {α : Type} {k : Nat} (hk : 0 < k) (xs : List α) :
    (chunks k xs).length = (xs.length + (k - 1)) / k := by
  induction h : xs.length using Nat.strong_induction_on generalizing xs with
  | _ n ih =>
    by_cases hx : xs = []
    · subst hx
      simp at h
      subst h
      simp [Nat.div_eq_of_lt (show k - 1 < k by omega)]
    · have hpos := List.length_pos_iff.mpr hx
      rw [chunks_of_ne_nil hk hx, List.length_cons, ih _ (by rw [List.length_drop]; omega) _ rfl, List.length_drop, h]
      rcases Nat.lt_or_ge n k with h1 | h1
      · have h2 : n - k = 0 := by omega
        rw [h2, Nat.zero_add, Nat.div_eq_of_lt (by omega)]
        have h3 : n + (k - 1) = (n - 1) + k * 1 := by omega
        rw [h3, Nat.add_mul_div_left _ _ hk, Nat.div_eq_of_lt (by omega)]
      · have h3 : n + (k - 1) = (n - k + (k - 1)) + k * 1 := by omega
        rw [h3, Nat.add_mul_div_left _ _ hk]

/-- Every piece but the last is full. -/
theorem length_le_of_mem_chunks {α : Type} {k : Nat} (hk : 0 < k) (xs : List α) :
    ∀ c ∈ chunks k xs, c.length ≤ k ∧ c ≠ [] := by
  induction h : xs.length using Nat.strong_induction_on generalizing xs with
  | _ n ih =>
    by_cases hx : xs = []
    · simp [hx]
    · rw [chunks_of_ne_nil hk hx]
      intro c hc
      rcases List.mem_cons.mp hc with rfl | hc
      · refine ⟨by simp, ?_⟩
        simp only [ne_eq, List.take_eq_nil_iff, not_or]
        exact ⟨by omega, hx⟩
      · exact ih _ (by rw [List.length_drop, ← h]; have := List.length_pos_iff.mpr hx; omega) _ rfl c hc

@[simp] theorem slice_length (s : List Byte) (a n : Nat) : (slice s a n).length = min n (s.length - a) := by
  simp [slice]

end Sys2Proof.Machine
end

