-- ==== Sys2Proof/Laws/Base32.lean ====
section
/-! SUPPORT. The laws of the Base32 codec that later proofs cite. -/

namespace Sys2Proof.Machine

/-! ### Encoding -/

theorem padCount_le (r : Nat) : padCount r ≤ 8 := by unfold padCount; split <;> omega

@[simp] theorem encChunk_length (c : List Byte) : (encChunk c).length = 8 := by
  have := padCount_le c.length
  simp [encChunk]
  omega

theorem length_flatMap_encChunk (cs : List (List Byte)) : (cs.flatMap encChunk).length = 8 * cs.length := by
  induction cs with
  | nil => rfl
  | cons c cs ih => rw [List.flatMap_cons, List.length_append, ih, encChunk_length, List.length_cons]; omega

/-- The length of an encoded text (`40_base32.md` R122). -/
@[simp] theorem enc32_length (b : List Byte) : (enc32 b).length = 8 * ((b.length + 4) / 5) := by
  rw [enc32, length_flatMap_encChunk, chunks_length (by norm_num)]

/-- A full chunk is encoded by itself, in front of the rest. -/
theorem enc32_append (c b : List Byte) (h : c.length = 5) : enc32 (c ++ b) = encChunk c ++ enc32 b := by
  rw [enc32, chunks_append (by norm_num) c b h, List.flatMap_cons, ← enc32]

theorem enc32_short (c : List Byte) (h0 : c ≠ []) (h : c.length ≤ 5) : enc32 c = encChunk c := by
  rw [enc32, chunks_singleton h0 h]
  simp

/-! ### Decoding -/

theorem groupBytes_le (r : Nat) : groupBytes r ≤ 5 := by unfold groupBytes; split <;> omega

@[simp] theorem decGroup_length (vs : List Nat) : (decGroup vs).length = groupBytes vs.length := by
  have := groupBytes_le vs.length
  simp [decGroup]
  omega

theorem length_flatMap_decGroup (vs : List Nat) (h : vs.length % 8 ∉ [1, 3, 6]) :
    ((chunks 8 vs).flatMap decGroup).length = vs.length * 5 / 8 := by
  induction hn : vs.length using Nat.strong_induction_on generalizing vs with
  | _ n ih =>
    by_cases hx : vs = []
    · subst hx; simp at hn; subst hn; simp
    · have hpos := List.length_pos_iff.mpr hx
      rw [chunks_of_ne_nil (by norm_num) hx, List.flatMap_cons, List.length_append, decGroup_length]
      rcases Nat.lt_or_ge n 8 with h8 | h8
      · rw [List.drop_of_length_le (by omega), chunks_nil]
        rw [hn] at h
        simp only [List.length_take, hn, List.flatMap_nil, List.length_nil, Nat.add_zero, Nat.min_eq_right h8.le]
        interval_cases n <;> simp_all [groupBytes]
      · have hd : (vs.drop 8).length = n - 8 := by rw [List.length_drop, hn]
        rw [ih (n - 8) (by omega) (vs.drop 8) (by rw [hd]; rw [hn] at h; rwa [show (n - 8) % 8 = n % 8 by omega]) hd]
        simp only [List.length_take, hn, Nat.min_eq_left h8, groupBytes]
        omega

theorem realSymbols_length_le (t : List Byte) : (realSymbols t).length ≤ t.length := by
  have := (List.dropWhile_sublist (p := fun c => c == padChar) (l := t.reverse)).length_le
  simpa [realSymbols] using this

theorem firstInvalid_none_iff (i : Nat) (u : List Byte) : firstInvalid i u = none ↔ ∀ c ∈ u, val c ≠ none := by
  induction u generalizing i with
  | nil => simp [firstInvalid]
  | cons c u ih =>
    unfold firstInvalid
    cases h : val c <;> simp [h, ih]

theorem filterMap_val_length (u : List Byte) (h : ∀ c ∈ u, val c ≠ none) : (u.filterMap val).length = u.length := by
  induction u with
  | nil => rfl
  | cons c u ih =>
    have h1 : val c ≠ none := h c (by simp)
    obtain ⟨v, hv⟩ := Option.ne_none_iff_exists'.mp h1
    rw [List.filterMap_cons_some hv, List.length_cons, List.length_cons, ih fun c hc => h c (by simp [hc])]

/-- What a decoded byte string comes from (`40_base32.md` R125 to R128). -/
theorem dec32_ok {t out : List Byte} (h : dec32 t = .ok out) :
    (∀ c ∈ realSymbols t, val c ≠ none) ∧ (realSymbols t).length % 8 ∉ [1, 3, 6] ∧
      out = (chunks 8 ((realSymbols t).filterMap val)).flatMap decGroup := by
  unfold dec32 at h
  simp only at h
  split at h
  · cases h
  · rename_i h1
    split at h
    · cases h
    · rename_i h2
      injection h with h
      exact ⟨(firstInvalid_none_iff _ _).mp h1, by simpa using h2, h.symm⟩

/-- The length of a decoded byte string (`40_base32.md` R127, R131). -/
theorem dec32_ok_length {t out : List Byte} (h : dec32 t = .ok out) :
    out.length = (realSymbols t).length * 5 / 8 := by
  obtain ⟨h1, h2, rfl⟩ := dec32_ok h
  rw [← filterMap_val_length _ h1] at h2 ⊢
  exact length_flatMap_decGroup _ h2

/-! ### The bytes of a decoded text -/

/-- Symbol values laid end to end, 5 bits each. -/
def symbolBits (vs : List Nat) : Nat := vs.foldl (fun v x => v * 32 + x) 0

theorem foldl_symbolBits (v : Nat) (vs : List Nat) :
    vs.foldl (fun v x => v * 32 + x) v = v * 2 ^ (5 * vs.length) + symbolBits vs := by
  induction vs generalizing v with
  | nil => simp [symbolBits]
  | cons x vs ih =>
    simp only [symbolBits, List.foldl_cons, List.length_cons]
    rw [ih, ih (0 * 32 + x), show 5 * (vs.length + 1) = 5 * vs.length + 5 by ring, pow_add]
    ring

theorem symbolBits_append (xs ys : List Nat) :
    symbolBits (xs ++ ys) = symbolBits xs * 2 ^ (5 * ys.length) + symbolBits ys := by
  rw [symbolBits, List.foldl_append, foldl_symbolBits]
  rfl

theorem symbolBits_lt (vs : List Nat) (h : ∀ v ∈ vs, v < 32) : symbolBits vs < 2 ^ (5 * vs.length) := by
  induction vs with
  | nil => simp [symbolBits]
  | cons x vs ih =>
    have h1 := ih fun v hv => h v (by simp [hv])
    have h2 : x < 32 := h x (by simp)
    rw [show x :: vs = [x] ++ vs from rfl, symbolBits_append, List.length_append, List.length_singleton,
      Nat.mul_add, pow_add]
    have : symbolBits [x] = x := by simp [symbolBits]
    rw [this]
    generalize 2 ^ (5 * vs.length) = p at *
    have := Nat.mul_le_mul_right p (show x + 1 ≤ 32 by omega)
    rw [Nat.add_mul, Nat.one_mul] at this
    omega

/-- A group's bytes are the whole bytes of its bits. -/
theorem getElem_decGroup (vs : List Nat) (i : Nat) (h : i < (decGroup vs).length) (hv : vs.length ≤ 8)
    (hi : 8 * (i + 1) ≤ 5 * vs.length) :
    (decGroup vs)[i].toNat = symbolBits vs / 2 ^ (5 * vs.length - 8 * (i + 1)) % 256 := by
  have h5 : i < 5 := by
    have := groupBytes_le vs.length
    rw [decGroup_length] at h
    omega
  simp only [decGroup, List.getElem_take, beBytes, List.getElem_map, List.getElem_range, BitVec.toNat_ofNat]
  rw [show 8 * (5 - 1 - i) = 5 * (8 - vs.length) + (5 * vs.length - 8 * (i + 1)) by omega, pow_add,
    ← Nat.div_div_eq_div_mul, Nat.mul_div_cancel _ (by positivity)]
  rfl

/-- The bytes of a decoded text are the whole bytes of all its bits. -/
theorem getElem_decoded (vs : List Nat) (hv : ∀ v ∈ vs, v < 32) (h : vs.length % 8 ∉ [1, 3, 6]) (i : Nat)
    (hi : i < ((chunks 8 vs).flatMap decGroup).length) :
    ((chunks 8 vs).flatMap decGroup)[i].toNat = symbolBits vs / 2 ^ (5 * vs.length - 8 * (i + 1)) % 256 := by
  induction hn : vs.length using Nat.strong_induction_on generalizing vs i with
  | _ n ih =>
  have hlen := length_flatMap_decGroup vs h
  have hi' : i < vs.length * 5 / 8 := by omega
  have hne : vs ≠ [] := by rintro rfl; simp at hi'
  rcases Nat.lt_or_ge 8 n with h8 | h8
  · obtain ⟨c, d, hc, rfl⟩ : ∃ c d : List Nat, c.length = 8 ∧ vs = c ++ d :=
      ⟨vs.take 8, vs.drop 8, by simp; omega, (List.take_append_drop 8 vs).symm⟩
    have hg : (decGroup c).length = 5 := by rw [decGroup_length, hc]; rfl
    simp only [List.length_append, hc] at hn hi' h
    have hsplit : (chunks 8 (c ++ d)).flatMap decGroup = decGroup c ++ (chunks 8 d).flatMap decGroup := by
      rw [chunks_append (by norm_num) c d hc, List.flatMap_cons]
    simp only [hsplit, symbolBits_append]
    have hd := symbolBits_lt d fun v hv' => hv v (by simp [hv'])
    rcases Nat.lt_or_ge i 5 with h5 | h5
    · rw [List.getElem_append_left (by omega), getElem_decGroup c i (by omega) (by omega) (by omega), hc,
        show 5 * n - 8 * (i + 1) = 5 * d.length + (5 * 8 - 8 * (i + 1)) by omega, pow_add,
        ← Nat.div_div_eq_div_mul, Nat.mul_comm (symbolBits c), Nat.mul_add_div (by positivity), Nat.div_eq_of_lt hd]
      rfl
    · have hdm : d.length % 8 ∉ [1, 3, 6] := by rwa [show d.length % 8 = (8 + d.length) % 8 by omega]
      have hdl := length_flatMap_decGroup d hdm
      rw [List.getElem_append_right (by omega)]
      have := ih d.length (by omega) d (fun v hv' => hv v (by simp [hv'])) hdm (i - (decGroup c).length)
        (by omega) rfl
      rw [this, hg, show 5 * d.length - 8 * (i - 5 + 1) = 5 * n - 8 * (i + 1) by omega]
      obtain ⟨e, he⟩ : ∃ e, 5 * d.length = 5 * n - 8 * (i + 1) + (8 + e) := ⟨5 * d.length - (5 * n - 8 * (i + 1)) - 8, by omega⟩
      rw [he, pow_add, show symbolBits c * (2 ^ (5 * n - 8 * (i + 1)) * 2 ^ (8 + e))
          = 2 ^ (5 * n - 8 * (i + 1)) * (symbolBits c * 2 ^ (8 + e)) by ring,
        Nat.mul_add_div (by positivity), show symbolBits c * 2 ^ (8 + e) = 256 * (symbolBits c * 2 ^ e) by
          rw [pow_add]; ring, Nat.mul_add_mod]
  · have hs : (chunks 8 vs).flatMap decGroup = decGroup vs := by
      rw [chunks_singleton hne (by omega)]; simp
    simp only [hs] at hi ⊢
    rw [getElem_decGroup vs i hi (by omega) (by omega), hn]

theorem val_lt {c : Byte} {v : Nat} (h : val c = some v) : v < 32 := by
  unfold val at h
  split at h
  · injection h; omega
  · split at h
    · injection h; omega
    · split at h
      · injection h; omega
      · cases h

/-- The bits of a text, read off its characters. -/
theorem symbolBits_filterMap (u : List Byte) (h : ∀ c ∈ u, val c ≠ none) (v : Nat) :
    (u.filterMap val).foldl (fun v x => v * 32 + x) v = u.foldl (fun v c => v * 32 + (val c).getD 0) v := by
  induction u generalizing v with
  | nil => rfl
  | cons c u ih =>
    obtain ⟨x, hx⟩ := Option.ne_none_iff_exists'.mp (h c (by simp))
    rw [List.filterMap_cons_some hx, List.foldl_cons, List.foldl_cons, ih fun c hc => h c (by simp [hc])]
    simp [hx]

/-! ### Decoding what was encoded -/

/-- The first byte outside the alphabet is the one found. -/
theorem firstInvalid_some (u : List Byte) (k i : Nat) (h : i < u.length) (hi : val u[i] = none)
    (hj : ∀ j (hj : j < i), val u[j] ≠ none) :
    firstInvalid k u = some (k + i) := by
  induction u generalizing k i with
  | nil => simp at h
  | cons c u ih =>
    unfold firstInvalid
    cases i with
    | zero => simp at hi; simp [hi]
    | succ i =>
      have h0 := hj 0 (by omega)
      simp only [List.getElem_cons_zero] at h0
      rw [if_neg (by simpa using h0), ih (k+1) i (by simpa using h) (by simpa using hi)
        (fun j hj' => by simpa using hj (j+1) (by omega))]
      congr 1; omega

/-- The 5-bit groups of a 40-bit number, put together again. -/
theorem foldl32 (V n : Nat) (hn : n ≤ 8) (hV : V < 2 ^ 40) :
    ((List.range n).map fun j => V / 2 ^ (35 - 5 * j) % 32).foldl (fun v x => v * 32 + x) 0 = V / 2 ^ (40 - 5 * n) := by
  induction n with
  | zero => simp; omega
  | succ n ih =>
    rw [List.range_succ, List.map_append, List.foldl_append, ih (by omega)]
    simp only [List.map_cons, List.map_nil, List.foldl_cons, List.foldl_nil]
    have h1 : 40 - 5 * n = (35 - 5 * n) + 5 := by omega
    have h2 : 40 - 5 * (n + 1) = 35 - 5 * n := by omega
    rw [h1, h2, pow_add, ← Nat.div_div_eq_div_mul]
    omega

/-- A chunk's symbols are those of values that decode to it. -/
theorem decGroup_chunk (c : List Byte) (h0 : c ≠ []) (h : c.length ≤ 5) :
    let vs := (List.range (8 - padCount c.length)).map fun j =>
      be (c ++ List.replicate (5 - c.length) 0) / 2 ^ (35 - 5 * j) % 32
    decGroup vs = c ∧ encChunk c = vs.map sym ++ List.replicate (padCount c.length) padChar := by
  intro vs
  have hpos := List.length_pos_iff.mpr h0
  have hV : be (c ++ List.replicate (5 - c.length) 0) < 2 ^ 40 := by
    have := be_lt (c ++ List.replicate (5 - c.length) 0)
    rw [List.length_append, List.length_replicate, show c.length + (5 - c.length) = 5 by omega] at this
    norm_num at this ⊢; exact this
  have hp := padCount_le c.length
  refine ⟨?_, ?_⟩
  · have hlen : vs.length = 8 - padCount c.length := by simp [vs]
    have hf : vs.foldl (fun v x => v * 32 + x) 0 =
        be (c ++ List.replicate (5 - c.length) 0) / 2 ^ (5 * padCount c.length) := by
      rw [foldl32 _ _ (by omega) hV]; congr 2; omega
    unfold decGroup
    simp only [hf, hlen, show 8 - (8 - padCount c.length) = padCount c.length by omega]
    have hb := beBytes_be (c ++ List.replicate (5 - c.length) 0) 0
    rw [List.length_append, List.length_replicate, show c.length + (5 - c.length) = 5 by omega] at hb
    simp only [zero_mul, zero_add] at hb
    generalize hV' : be (c ++ List.replicate (5 - c.length) 0) = V at *
    have hg : groupBytes (8 - padCount c.length) = c.length ∧ 5 * padCount c.length ≤ 8 * (5 - c.length) := by
      obtain h | h | h | h | h :
          c.length = 1 ∨ c.length = 2 ∨ c.length = 3 ∨ c.length = 4 ∨ c.length = 5 := by omega
      all_goals rw [h]; decide
    rw [hg.1]
    have : (beBytes 5 (V / 2 ^ (5 * padCount c.length) * 2 ^ (5 * padCount c.length))).take c.length =
        (beBytes 5 V).take c.length := by
      refine List.ext_getElem (by simp) fun i h1 h2 => ?_
      simp at h1
      simp only [List.getElem_take, beBytes, List.getElem_map, List.getElem_range]
      obtain ⟨m, hm⟩ : ∃ m, 8 * (5 - 1 - i) = 5 * padCount c.length + m :=
        ⟨8 * (5 - 1 - i) - 5 * padCount c.length, by omega⟩
      rw [hm, pow_add, ← Nat.div_div_eq_div_mul, ← Nat.div_div_eq_div_mul, Nat.mul_div_cancel _ (by positivity)]
    rw [this, hb]
    simp
  · simp only [encChunk, vs]
    congr 1
    rw [← List.map_take, List.take_range, List.map_map,
      show min (8 - padCount c.length) 8 = 8 - padCount c.length by omega]
    rfl

/-- An encoded text is the symbols of values that decode to the bytes, then `=`. -/
theorem enc32_values (b : List Byte) :
    ∃ vs p, enc32 b = vs.map sym ++ List.replicate p padChar ∧ (∀ v ∈ vs, v < 32) ∧
    ¬(vs.length % 8 = 1 ∨ vs.length % 8 = 3 ∨ vs.length % 8 = 6) ∧ (chunks 8 vs).flatMap decGroup = b := by
  induction hn : b.length using Nat.strong_induction_on generalizing b with
  | _ n ih =>
  subst hn
  by_cases h0 : b = []
  · subst h0; exact ⟨[], 0, rfl, by simp, by simp, rfl⟩
  rcases Nat.lt_or_ge b.length 5 with h5 | h5
  · obtain ⟨h1, h2⟩ := decGroup_chunk b h0 (by omega)
    refine ⟨_, _, (enc32_short b h0 (by omega)).trans h2, ?_, ?_, ?_⟩
    · intro v hv; simp only [List.mem_map] at hv; obtain ⟨j, _, rfl⟩ := hv; exact Nat.mod_lt _ (by norm_num)
    · have hpos := List.length_pos_iff.mpr h0
      simp only [List.length_map, List.length_range]
      obtain h | h | h | h : b.length = 1 ∨ b.length = 2 ∨ b.length = 3 ∨ b.length = 4 := by omega
      all_goals rw [h]; decide
    · rw [chunks_singleton]
      · simpa using h1
      · have hpos := List.length_pos_iff.mpr h0
        simp only [ne_eq, List.map_eq_nil_iff, List.range_eq_nil]
        obtain h | h | h | h : b.length = 1 ∨ b.length = 2 ∨ b.length = 3 ∨ b.length = 4 := by omega
        all_goals rw [h]; decide
      · simp
  · obtain ⟨c, d, hc, rfl⟩ : ∃ c d : List Byte, c.length = 5 ∧ b = c ++ d :=
      ⟨b.take 5, b.drop 5, by simp; omega, (List.take_append_drop 5 b).symm⟩
    obtain ⟨vs, p, h1, h2, h3, h4⟩ := ih d.length (by simp [hc]) d rfl
    have hcn : c ≠ [] := by rintro rfl; simp at hc
    obtain ⟨h5, h6⟩ := decGroup_chunk c hcn (by omega)
    have hp : padCount c.length = 0 := by rw [hc]; rfl
    rw [hp] at h5 h6
    generalize hw : (List.range (8 - 0)).map (fun j =>
      be (c ++ List.replicate (5 - c.length) 0) / 2 ^ (35 - 5 * j) % 32) = w at *
    have hwl : w.length = 8 := by rw [← hw]; simp
    refine ⟨w ++ vs, p, ?_, ?_, ?_, ?_⟩
    · rw [enc32_append c d hc, h6, h1]; simp
    · intro v hv
      rcases List.mem_append.mp hv with hv | hv
      · rw [← hw] at hv
        simp only [List.mem_map] at hv
        obtain ⟨j, _, rfl⟩ := hv
        exact Nat.mod_lt _ (by norm_num)
      · exact h2 v hv
    · rw [List.length_append, hwl]; omega
    · rw [chunks_append (by norm_num) w vs hwl, List.flatMap_cons, h4, h5]

theorem realSymbols_syms (vs : List Nat) (p : Nat) (h : ∀ v ∈ vs, v < 32) :
    realSymbols (vs.map sym ++ List.replicate p padChar) = vs.map sym := by
  unfold realSymbols
  rw [List.reverse_append, List.reverse_replicate, List.dropWhile_append_of_pos (by simp)]
  have hs : ∀ v < 32, (sym v == padChar) = false := by decide
  rw [List.dropWhile_eq_self_iff.mpr, List.reverse_reverse]
  intro hl
  have : (vs.map sym).reverse[0] ∈ (vs.map sym).reverse := List.getElem_mem _
  rw [List.mem_reverse, List.mem_map] at this
  obtain ⟨v, hv, hv'⟩ := this
  rw [← hv', hs v (h v hv)]; simp

end Sys2Proof.Machine
end

