-- ==== Sys2Proof/Laws/State.lean ====
section
/-! SUPPORT. One lemma per field per named update of the state, each by `rfl`, so that no later proof unfolds a record
update. -/

namespace Sys2Proof.Machine

/-! ### `clearFlags` -/

@[simp] theorem State.clearFlags_ie (v : Word) (s : State) : (s.clearFlags v).ie = s.ie := rfl
@[simp] theorem State.clearFlags_busy (v : Word) (s : State) : (s.clearFlags v).busy = s.busy := rfl
@[simp] theorem State.clearFlags_done (v : Word) (s : State) : (s.clearFlags v).done = (s.done && !v.getLsbD 1) := rfl
@[simp] theorem State.clearFlags_err (v : Word) (s : State) : (s.clearFlags v).err = (s.err && !v.getLsbD 2) := rfl
@[simp] theorem State.clearFlags_hzd (v : Word) (s : State) : (s.clearFlags v).hzd = (s.hzd && !v.getLsbD 3) := rfl
@[simp] theorem State.clearFlags_cmdreg (v : Word) (s : State) : (s.clearFlags v).cmdreg = s.cmdreg := rfl
@[simp] theorem State.clearFlags_errcode (v : Word) (s : State) : (s.clearFlags v).errcode = (if v.getLsbD 2 then 0 else s.errcode) := rfl
@[simp] theorem State.clearFlags_errinfo (v : Word) (s : State) : (s.clearFlags v).errinfo = (if v.getLsbD 2 then 0 else s.errinfo) := rfl
@[simp] theorem State.clearFlags_alg (v : Word) (s : State) : (s.clearFlags v).alg = s.alg := rfl
@[simp] theorem State.clearFlags_digits (v : Word) (s : State) : (s.clearFlags v).digits = s.digits := rfl
@[simp] theorem State.clearFlags_ctrLo (v : Word) (s : State) : (s.clearFlags v).ctrLo = s.ctrLo := rfl
@[simp] theorem State.clearFlags_ctrHi (v : Word) (s : State) : (s.clearFlags v).ctrHi = s.ctrHi := rfl
@[simp] theorem State.clearFlags_binlen (v : Word) (s : State) : (s.clearFlags v).binlen = s.binlen := rfl
@[simp] theorem State.clearFlags_txtlen (v : Word) (s : State) : (s.clearFlags v).txtlen = s.txtlen := rfl
@[simp] theorem State.clearFlags_diglen (v : Word) (s : State) : (s.clearFlags v).diglen = s.diglen := rfl
@[simp] theorem State.clearFlags_pwdlen (v : Word) (s : State) : (s.clearFlags v).pwdlen = s.pwdlen := rfl
@[simp] theorem State.clearFlags_truncval (v : Word) (s : State) : (s.clearFlags v).truncval = s.truncval := rfl
@[simp] theorem State.clearFlags_code (v : Word) (s : State) : (s.clearFlags v).code = s.code := rfl
@[simp] theorem State.clearFlags_mem (v : Word) (s : State) : (s.clearFlags v).mem = s.mem := rfl
@[simp] theorem State.clearFlags_residue (v : Word) (s : State) : (s.clearFlags v).residue = s.residue := rfl
@[simp] theorem State.clearFlags_draws (v : Word) (s : State) : (s.clearFlags v).draws = s.draws := rfl
@[simp] theorem State.clearFlags_inputs (v : Word) (s : State) : (s.clearFlags v).inputs = s.inputs := rfl
@[simp] theorem State.clearFlags_response (v : Word) (s : State) : (s.clearFlags v).response = s.response := rfl

/-! ### `hazard` -/

@[simp] theorem State.hazard_ie (s : State) : (s.hazard).ie = s.ie := rfl
@[simp] theorem State.hazard_busy (s : State) : (s.hazard).busy = s.busy := rfl
@[simp] theorem State.hazard_done (s : State) : (s.hazard).done = s.done := rfl
@[simp] theorem State.hazard_err (s : State) : (s.hazard).err = s.err := rfl
@[simp] theorem State.hazard_hzd (s : State) : (s.hazard).hzd = true := rfl
@[simp] theorem State.hazard_cmdreg (s : State) : (s.hazard).cmdreg = s.cmdreg := rfl
@[simp] theorem State.hazard_errcode (s : State) : (s.hazard).errcode = s.errcode := rfl
@[simp] theorem State.hazard_errinfo (s : State) : (s.hazard).errinfo = s.errinfo := rfl
@[simp] theorem State.hazard_alg (s : State) : (s.hazard).alg = s.alg := rfl
@[simp] theorem State.hazard_digits (s : State) : (s.hazard).digits = s.digits := rfl
@[simp] theorem State.hazard_ctrLo (s : State) : (s.hazard).ctrLo = s.ctrLo := rfl
@[simp] theorem State.hazard_ctrHi (s : State) : (s.hazard).ctrHi = s.ctrHi := rfl
@[simp] theorem State.hazard_binlen (s : State) : (s.hazard).binlen = s.binlen := rfl
@[simp] theorem State.hazard_txtlen (s : State) : (s.hazard).txtlen = s.txtlen := rfl
@[simp] theorem State.hazard_diglen (s : State) : (s.hazard).diglen = s.diglen := rfl
@[simp] theorem State.hazard_pwdlen (s : State) : (s.hazard).pwdlen = s.pwdlen := rfl
@[simp] theorem State.hazard_truncval (s : State) : (s.hazard).truncval = s.truncval := rfl
@[simp] theorem State.hazard_code (s : State) : (s.hazard).code = s.code := rfl
@[simp] theorem State.hazard_mem (s : State) : (s.hazard).mem = s.mem := rfl
@[simp] theorem State.hazard_residue (s : State) : (s.hazard).residue = s.residue := rfl
@[simp] theorem State.hazard_draws (s : State) : (s.hazard).draws = s.draws := rfl
@[simp] theorem State.hazard_inputs (s : State) : (s.hazard).inputs = s.inputs := rfl
@[simp] theorem State.hazard_response (s : State) : (s.hazard).response = s.response := rfl

/-! ### `accept` -/

@[simp] theorem State.accept_ie (w : Word) (s : State) : (s.accept w).ie = s.ie := rfl
@[simp] theorem State.accept_busy (w : Word) (s : State) : (s.accept w).busy = true := rfl
@[simp] theorem State.accept_done (w : Word) (s : State) : (s.accept w).done = false := rfl
@[simp] theorem State.accept_err (w : Word) (s : State) : (s.accept w).err = s.err := rfl
@[simp] theorem State.accept_hzd (w : Word) (s : State) : (s.accept w).hzd = s.hzd := rfl
@[simp] theorem State.accept_cmdreg (w : Word) (s : State) : (s.accept w).cmdreg = w := rfl
@[simp] theorem State.accept_errcode (w : Word) (s : State) : (s.accept w).errcode = s.errcode := rfl
@[simp] theorem State.accept_errinfo (w : Word) (s : State) : (s.accept w).errinfo = s.errinfo := rfl
@[simp] theorem State.accept_alg (w : Word) (s : State) : (s.accept w).alg = s.alg := rfl
@[simp] theorem State.accept_digits (w : Word) (s : State) : (s.accept w).digits = s.digits := rfl
@[simp] theorem State.accept_ctrLo (w : Word) (s : State) : (s.accept w).ctrLo = s.ctrLo := rfl
@[simp] theorem State.accept_ctrHi (w : Word) (s : State) : (s.accept w).ctrHi = s.ctrHi := rfl
@[simp] theorem State.accept_binlen (w : Word) (s : State) : (s.accept w).binlen = s.binlen := rfl
@[simp] theorem State.accept_txtlen (w : Word) (s : State) : (s.accept w).txtlen = s.txtlen := rfl
@[simp] theorem State.accept_diglen (w : Word) (s : State) : (s.accept w).diglen = s.diglen := rfl
@[simp] theorem State.accept_pwdlen (w : Word) (s : State) : (s.accept w).pwdlen = s.pwdlen := rfl
@[simp] theorem State.accept_truncval (w : Word) (s : State) : (s.accept w).truncval = s.truncval := rfl
@[simp] theorem State.accept_code (w : Word) (s : State) : (s.accept w).code = s.code := rfl
@[simp] theorem State.accept_mem (w : Word) (s : State) : (s.accept w).mem = s.mem := rfl
@[simp] theorem State.accept_residue (w : Word) (s : State) : (s.accept w).residue = s.residue := rfl
@[simp] theorem State.accept_draws (w : Word) (s : State) : (s.accept w).draws = s.draws := rfl
@[simp] theorem State.accept_inputs (w : Word) (s : State) : (s.accept w).inputs = s.inputs := rfl
@[simp] theorem State.accept_response (w : Word) (s : State) : (s.accept w).response = s.response := rfl

/-! ### `finish` -/

@[simp] theorem State.finish_ie (s : State) : (s.finish).ie = s.ie := rfl
@[simp] theorem State.finish_busy (s : State) : (s.finish).busy = false := rfl
@[simp] theorem State.finish_done (s : State) : (s.finish).done = true := rfl
@[simp] theorem State.finish_err (s : State) : (s.finish).err = s.err := rfl
@[simp] theorem State.finish_hzd (s : State) : (s.finish).hzd = s.hzd := rfl
@[simp] theorem State.finish_cmdreg (s : State) : (s.finish).cmdreg = s.cmdreg := rfl
@[simp] theorem State.finish_errcode (s : State) : (s.finish).errcode = s.errcode := rfl
@[simp] theorem State.finish_errinfo (s : State) : (s.finish).errinfo = s.errinfo := rfl
@[simp] theorem State.finish_alg (s : State) : (s.finish).alg = s.alg := rfl
@[simp] theorem State.finish_digits (s : State) : (s.finish).digits = s.digits := rfl
@[simp] theorem State.finish_ctrLo (s : State) : (s.finish).ctrLo = s.ctrLo := rfl
@[simp] theorem State.finish_ctrHi (s : State) : (s.finish).ctrHi = s.ctrHi := rfl
@[simp] theorem State.finish_binlen (s : State) : (s.finish).binlen = s.binlen := rfl
@[simp] theorem State.finish_txtlen (s : State) : (s.finish).txtlen = s.txtlen := rfl
@[simp] theorem State.finish_diglen (s : State) : (s.finish).diglen = s.diglen := rfl
@[simp] theorem State.finish_pwdlen (s : State) : (s.finish).pwdlen = s.pwdlen := rfl
@[simp] theorem State.finish_truncval (s : State) : (s.finish).truncval = s.truncval := rfl
@[simp] theorem State.finish_code (s : State) : (s.finish).code = s.code := rfl
@[simp] theorem State.finish_mem (s : State) : (s.finish).mem = s.mem := rfl
@[simp] theorem State.finish_residue (s : State) : (s.finish).residue = s.residue := rfl
@[simp] theorem State.finish_draws (s : State) : (s.finish).draws = s.draws := rfl
@[simp] theorem State.finish_inputs (s : State) : (s.finish).inputs = s.inputs := rfl
@[simp] theorem State.finish_response (s : State) : (s.finish).response = s.response := rfl

/-! ### `record` -/

@[simp] theorem State.record_ie (k : ErrorKind) (info : Word) (s : State) : (s.record k info).ie = s.ie := rfl
@[simp] theorem State.record_busy (k : ErrorKind) (info : Word) (s : State) : (s.record k info).busy = s.busy := rfl
@[simp] theorem State.record_done (k : ErrorKind) (info : Word) (s : State) : (s.record k info).done = s.done := rfl
@[simp] theorem State.record_err (k : ErrorKind) (info : Word) (s : State) : (s.record k info).err = true := rfl
@[simp] theorem State.record_hzd (k : ErrorKind) (info : Word) (s : State) : (s.record k info).hzd = s.hzd := rfl
@[simp] theorem State.record_cmdreg (k : ErrorKind) (info : Word) (s : State) : (s.record k info).cmdreg = s.cmdreg := rfl
@[simp] theorem State.record_errcode (k : ErrorKind) (info : Word) (s : State) : (s.record k info).errcode = k.code := rfl
@[simp] theorem State.record_errinfo (k : ErrorKind) (info : Word) (s : State) : (s.record k info).errinfo = info := rfl
@[simp] theorem State.record_alg (k : ErrorKind) (info : Word) (s : State) : (s.record k info).alg = s.alg := rfl
@[simp] theorem State.record_digits (k : ErrorKind) (info : Word) (s : State) : (s.record k info).digits = s.digits := rfl
@[simp] theorem State.record_ctrLo (k : ErrorKind) (info : Word) (s : State) : (s.record k info).ctrLo = s.ctrLo := rfl
@[simp] theorem State.record_ctrHi (k : ErrorKind) (info : Word) (s : State) : (s.record k info).ctrHi = s.ctrHi := rfl
@[simp] theorem State.record_binlen (k : ErrorKind) (info : Word) (s : State) : (s.record k info).binlen = s.binlen := rfl
@[simp] theorem State.record_txtlen (k : ErrorKind) (info : Word) (s : State) : (s.record k info).txtlen = s.txtlen := rfl
@[simp] theorem State.record_diglen (k : ErrorKind) (info : Word) (s : State) : (s.record k info).diglen = s.diglen := rfl
@[simp] theorem State.record_pwdlen (k : ErrorKind) (info : Word) (s : State) : (s.record k info).pwdlen = s.pwdlen := rfl
@[simp] theorem State.record_truncval (k : ErrorKind) (info : Word) (s : State) : (s.record k info).truncval = s.truncval := rfl
@[simp] theorem State.record_code (k : ErrorKind) (info : Word) (s : State) : (s.record k info).code = s.code := rfl
@[simp] theorem State.record_mem (k : ErrorKind) (info : Word) (s : State) : (s.record k info).mem = s.mem := rfl
@[simp] theorem State.record_residue (k : ErrorKind) (info : Word) (s : State) : (s.record k info).residue = s.residue := rfl
@[simp] theorem State.record_draws (k : ErrorKind) (info : Word) (s : State) : (s.record k info).draws = s.draws := rfl
@[simp] theorem State.record_inputs (k : ErrorKind) (info : Word) (s : State) : (s.record k info).inputs = s.inputs := rfl
@[simp] theorem State.record_response (k : ErrorKind) (info : Word) (s : State) : (s.record k info).response = s.response := rfl

/-! ### `writeByte` -/

@[simp] theorem State.writeByte_ie (b : Buffer) (i : Nat) (v : Byte) (s : State) : (s.writeByte b i v).ie = s.ie := rfl
@[simp] theorem State.writeByte_busy (b : Buffer) (i : Nat) (v : Byte) (s : State) : (s.writeByte b i v).busy = s.busy := rfl
@[simp] theorem State.writeByte_done (b : Buffer) (i : Nat) (v : Byte) (s : State) : (s.writeByte b i v).done = s.done := rfl
@[simp] theorem State.writeByte_err (b : Buffer) (i : Nat) (v : Byte) (s : State) : (s.writeByte b i v).err = s.err := rfl
@[simp] theorem State.writeByte_hzd (b : Buffer) (i : Nat) (v : Byte) (s : State) : (s.writeByte b i v).hzd = s.hzd := rfl
@[simp] theorem State.writeByte_cmdreg (b : Buffer) (i : Nat) (v : Byte) (s : State) : (s.writeByte b i v).cmdreg = s.cmdreg := rfl
@[simp] theorem State.writeByte_errcode (b : Buffer) (i : Nat) (v : Byte) (s : State) : (s.writeByte b i v).errcode = s.errcode := rfl
@[simp] theorem State.writeByte_errinfo (b : Buffer) (i : Nat) (v : Byte) (s : State) : (s.writeByte b i v).errinfo = s.errinfo := rfl
@[simp] theorem State.writeByte_alg (b : Buffer) (i : Nat) (v : Byte) (s : State) : (s.writeByte b i v).alg = s.alg := rfl
@[simp] theorem State.writeByte_digits (b : Buffer) (i : Nat) (v : Byte) (s : State) : (s.writeByte b i v).digits = s.digits := rfl
@[simp] theorem State.writeByte_ctrLo (b : Buffer) (i : Nat) (v : Byte) (s : State) : (s.writeByte b i v).ctrLo = s.ctrLo := rfl
@[simp] theorem State.writeByte_ctrHi (b : Buffer) (i : Nat) (v : Byte) (s : State) : (s.writeByte b i v).ctrHi = s.ctrHi := rfl
@[simp] theorem State.writeByte_binlen (b : Buffer) (i : Nat) (v : Byte) (s : State) : (s.writeByte b i v).binlen = s.binlen := rfl
@[simp] theorem State.writeByte_txtlen (b : Buffer) (i : Nat) (v : Byte) (s : State) : (s.writeByte b i v).txtlen = s.txtlen := rfl
@[simp] theorem State.writeByte_diglen (b : Buffer) (i : Nat) (v : Byte) (s : State) : (s.writeByte b i v).diglen = s.diglen := rfl
@[simp] theorem State.writeByte_pwdlen (b : Buffer) (i : Nat) (v : Byte) (s : State) : (s.writeByte b i v).pwdlen = s.pwdlen := rfl
@[simp] theorem State.writeByte_truncval (b : Buffer) (i : Nat) (v : Byte) (s : State) : (s.writeByte b i v).truncval = s.truncval := rfl
@[simp] theorem State.writeByte_code (b : Buffer) (i : Nat) (v : Byte) (s : State) : (s.writeByte b i v).code = s.code := rfl
@[simp] theorem State.writeByte_mem (b : Buffer) (i : Nat) (v : Byte) (s : State) : (s.writeByte b i v).mem = s.mem.write (b.base + i) v := rfl
@[simp] theorem State.writeByte_residue (b : Buffer) (i : Nat) (v : Byte) (s : State) : (s.writeByte b i v).residue = s.residue := rfl
@[simp] theorem State.writeByte_draws (b : Buffer) (i : Nat) (v : Byte) (s : State) : (s.writeByte b i v).draws = s.draws := rfl
@[simp] theorem State.writeByte_inputs (b : Buffer) (i : Nat) (v : Byte) (s : State) : (s.writeByte b i v).inputs = s.inputs := rfl
@[simp] theorem State.writeByte_response (b : Buffer) (i : Nat) (v : Byte) (s : State) : (s.writeByte b i v).response = s.response := rfl

/-! ### `writeBuffer` -/

@[simp] theorem State.writeBuffer_ie (b : Buffer) (bs : List Byte) (s : State) : (s.writeBuffer b bs).ie = s.ie := rfl
@[simp] theorem State.writeBuffer_busy (b : Buffer) (bs : List Byte) (s : State) : (s.writeBuffer b bs).busy = s.busy := rfl
@[simp] theorem State.writeBuffer_done (b : Buffer) (bs : List Byte) (s : State) : (s.writeBuffer b bs).done = s.done := rfl
@[simp] theorem State.writeBuffer_err (b : Buffer) (bs : List Byte) (s : State) : (s.writeBuffer b bs).err = s.err := rfl
@[simp] theorem State.writeBuffer_hzd (b : Buffer) (bs : List Byte) (s : State) : (s.writeBuffer b bs).hzd = s.hzd := rfl
@[simp] theorem State.writeBuffer_cmdreg (b : Buffer) (bs : List Byte) (s : State) : (s.writeBuffer b bs).cmdreg = s.cmdreg := rfl
@[simp] theorem State.writeBuffer_errcode (b : Buffer) (bs : List Byte) (s : State) : (s.writeBuffer b bs).errcode = s.errcode := rfl
@[simp] theorem State.writeBuffer_errinfo (b : Buffer) (bs : List Byte) (s : State) : (s.writeBuffer b bs).errinfo = s.errinfo := rfl
@[simp] theorem State.writeBuffer_alg (b : Buffer) (bs : List Byte) (s : State) : (s.writeBuffer b bs).alg = s.alg := rfl
@[simp] theorem State.writeBuffer_digits (b : Buffer) (bs : List Byte) (s : State) : (s.writeBuffer b bs).digits = s.digits := rfl
@[simp] theorem State.writeBuffer_ctrLo (b : Buffer) (bs : List Byte) (s : State) : (s.writeBuffer b bs).ctrLo = s.ctrLo := rfl
@[simp] theorem State.writeBuffer_ctrHi (b : Buffer) (bs : List Byte) (s : State) : (s.writeBuffer b bs).ctrHi = s.ctrHi := rfl
@[simp] theorem State.writeBuffer_binlen (b : Buffer) (bs : List Byte) (s : State) : (s.writeBuffer b bs).binlen = s.binlen := rfl
@[simp] theorem State.writeBuffer_txtlen (b : Buffer) (bs : List Byte) (s : State) : (s.writeBuffer b bs).txtlen = s.txtlen := rfl
@[simp] theorem State.writeBuffer_diglen (b : Buffer) (bs : List Byte) (s : State) : (s.writeBuffer b bs).diglen = s.diglen := rfl
@[simp] theorem State.writeBuffer_pwdlen (b : Buffer) (bs : List Byte) (s : State) : (s.writeBuffer b bs).pwdlen = s.pwdlen := rfl
@[simp] theorem State.writeBuffer_truncval (b : Buffer) (bs : List Byte) (s : State) : (s.writeBuffer b bs).truncval = s.truncval := rfl
@[simp] theorem State.writeBuffer_code (b : Buffer) (bs : List Byte) (s : State) : (s.writeBuffer b bs).code = s.code := rfl
@[simp] theorem State.writeBuffer_mem (b : Buffer) (bs : List Byte) (s : State) : (s.writeBuffer b bs).mem = s.mem.writeBytes b.base (bs.take b.capacity) := rfl
@[simp] theorem State.writeBuffer_residue (b : Buffer) (bs : List Byte) (s : State) : (s.writeBuffer b bs).residue = s.residue := rfl
@[simp] theorem State.writeBuffer_draws (b : Buffer) (bs : List Byte) (s : State) : (s.writeBuffer b bs).draws = s.draws := rfl
@[simp] theorem State.writeBuffer_inputs (b : Buffer) (bs : List Byte) (s : State) : (s.writeBuffer b bs).inputs = s.inputs := rfl
@[simp] theorem State.writeBuffer_response (b : Buffer) (bs : List Byte) (s : State) : (s.writeBuffer b bs).response = s.response := rfl

/-! ### `storeDigest` -/

@[simp] theorem State.storeDigest_ie (d : List Byte) (s : State) : (s.storeDigest d).ie = s.ie := rfl
@[simp] theorem State.storeDigest_busy (d : List Byte) (s : State) : (s.storeDigest d).busy = s.busy := rfl
@[simp] theorem State.storeDigest_done (d : List Byte) (s : State) : (s.storeDigest d).done = s.done := rfl
@[simp] theorem State.storeDigest_err (d : List Byte) (s : State) : (s.storeDigest d).err = s.err := rfl
@[simp] theorem State.storeDigest_hzd (d : List Byte) (s : State) : (s.storeDigest d).hzd = s.hzd := rfl
@[simp] theorem State.storeDigest_cmdreg (d : List Byte) (s : State) : (s.storeDigest d).cmdreg = s.cmdreg := rfl
@[simp] theorem State.storeDigest_errcode (d : List Byte) (s : State) : (s.storeDigest d).errcode = s.errcode := rfl
@[simp] theorem State.storeDigest_errinfo (d : List Byte) (s : State) : (s.storeDigest d).errinfo = s.errinfo := rfl
@[simp] theorem State.storeDigest_alg (d : List Byte) (s : State) : (s.storeDigest d).alg = s.alg := rfl
@[simp] theorem State.storeDigest_digits (d : List Byte) (s : State) : (s.storeDigest d).digits = s.digits := rfl
@[simp] theorem State.storeDigest_ctrLo (d : List Byte) (s : State) : (s.storeDigest d).ctrLo = s.ctrLo := rfl
@[simp] theorem State.storeDigest_ctrHi (d : List Byte) (s : State) : (s.storeDigest d).ctrHi = s.ctrHi := rfl
@[simp] theorem State.storeDigest_binlen (d : List Byte) (s : State) : (s.storeDigest d).binlen = s.binlen := rfl
@[simp] theorem State.storeDigest_txtlen (d : List Byte) (s : State) : (s.storeDigest d).txtlen = s.txtlen := rfl
@[simp] theorem State.storeDigest_diglen (d : List Byte) (s : State) : (s.storeDigest d).diglen = BitVec.ofNat 32 s.alg.digestLength := rfl
@[simp] theorem State.storeDigest_pwdlen (d : List Byte) (s : State) : (s.storeDigest d).pwdlen = s.pwdlen := rfl
@[simp] theorem State.storeDigest_truncval (d : List Byte) (s : State) : (s.storeDigest d).truncval = s.truncval := rfl
@[simp] theorem State.storeDigest_code (d : List Byte) (s : State) : (s.storeDigest d).code = s.code := rfl
@[simp] theorem State.storeDigest_mem (d : List Byte) (s : State) : (s.storeDigest d).mem = s.mem.writeBytes Buffer.digest.base (d.take Buffer.digest.capacity) := rfl
@[simp] theorem State.storeDigest_residue (d : List Byte) (s : State) : (s.storeDigest d).residue = s.residue := rfl
@[simp] theorem State.storeDigest_draws (d : List Byte) (s : State) : (s.storeDigest d).draws = s.draws := rfl
@[simp] theorem State.storeDigest_inputs (d : List Byte) (s : State) : (s.storeDigest d).inputs = s.inputs := rfl
@[simp] theorem State.storeDigest_response (d : List Byte) (s : State) : (s.storeDigest d).response = s.response := rfl

/-! ### `storePassword` -/

@[simp] theorem State.storePassword_ie (x : BitVec 31) (s : State) : (s.storePassword x).ie = s.ie := rfl
@[simp] theorem State.storePassword_busy (x : BitVec 31) (s : State) : (s.storePassword x).busy = s.busy := rfl
@[simp] theorem State.storePassword_done (x : BitVec 31) (s : State) : (s.storePassword x).done = s.done := rfl
@[simp] theorem State.storePassword_err (x : BitVec 31) (s : State) : (s.storePassword x).err = s.err := rfl
@[simp] theorem State.storePassword_hzd (x : BitVec 31) (s : State) : (s.storePassword x).hzd = s.hzd := rfl
@[simp] theorem State.storePassword_cmdreg (x : BitVec 31) (s : State) : (s.storePassword x).cmdreg = s.cmdreg := rfl
@[simp] theorem State.storePassword_errcode (x : BitVec 31) (s : State) : (s.storePassword x).errcode = s.errcode := rfl
@[simp] theorem State.storePassword_errinfo (x : BitVec 31) (s : State) : (s.storePassword x).errinfo = s.errinfo := rfl
@[simp] theorem State.storePassword_alg (x : BitVec 31) (s : State) : (s.storePassword x).alg = s.alg := rfl
@[simp] theorem State.storePassword_digits (x : BitVec 31) (s : State) : (s.storePassword x).digits = s.digits := rfl
@[simp] theorem State.storePassword_ctrLo (x : BitVec 31) (s : State) : (s.storePassword x).ctrLo = s.ctrLo := rfl
@[simp] theorem State.storePassword_ctrHi (x : BitVec 31) (s : State) : (s.storePassword x).ctrHi = s.ctrHi := rfl
@[simp] theorem State.storePassword_binlen (x : BitVec 31) (s : State) : (s.storePassword x).binlen = s.binlen := rfl
@[simp] theorem State.storePassword_txtlen (x : BitVec 31) (s : State) : (s.storePassword x).txtlen = s.txtlen := rfl
@[simp] theorem State.storePassword_diglen (x : BitVec 31) (s : State) : (s.storePassword x).diglen = s.diglen := rfl
@[simp] theorem State.storePassword_pwdlen (x : BitVec 31) (s : State) : (s.storePassword x).pwdlen = s.digits := rfl
@[simp] theorem State.storePassword_truncval (x : BitVec 31) (s : State) : (s.storePassword x).truncval = x := rfl
@[simp] theorem State.storePassword_code (x : BitVec 31) (s : State) : (s.storePassword x).code = BitVec.ofNat 32 (renderCode x.toNat s.digits.toNat) := rfl
@[simp] theorem State.storePassword_mem (x : BitVec 31) (s : State) : (s.storePassword x).mem = s.mem.writeBytes Buffer.pwd.base ((renderDigits (renderCode x.toNat s.digits.toNat) s.digits.toNat).take Buffer.pwd.capacity) := rfl
@[simp] theorem State.storePassword_residue (x : BitVec 31) (s : State) : (s.storePassword x).residue = s.residue := rfl
@[simp] theorem State.storePassword_draws (x : BitVec 31) (s : State) : (s.storePassword x).draws = s.draws := rfl
@[simp] theorem State.storePassword_inputs (x : BitVec 31) (s : State) : (s.storePassword x).inputs = s.inputs := rfl
@[simp] theorem State.storePassword_response (x : BitVec 31) (s : State) : (s.storePassword x).response = s.response := rfl

/-! ### `inFlight` -/

@[simp] theorem State.inFlight_ie (w : Word) (s : State) : (s.inFlight w).ie = s.ie := rfl
@[simp] theorem State.inFlight_busy (w : Word) (s : State) : (s.inFlight w).busy = true := rfl
@[simp] theorem State.inFlight_done (w : Word) (s : State) : (s.inFlight w).done = false := rfl
@[simp] theorem State.inFlight_err (w : Word) (s : State) : (s.inFlight w).err = s.err := rfl
@[simp] theorem State.inFlight_hzd (w : Word) (s : State) : (s.inFlight w).hzd = s.hzd := rfl
@[simp] theorem State.inFlight_cmdreg (w : Word) (s : State) : (s.inFlight w).cmdreg = w := rfl
@[simp] theorem State.inFlight_errcode (w : Word) (s : State) : (s.inFlight w).errcode = s.errcode := rfl
@[simp] theorem State.inFlight_errinfo (w : Word) (s : State) : (s.inFlight w).errinfo = s.errinfo := rfl
@[simp] theorem State.inFlight_alg (w : Word) (s : State) : (s.inFlight w).alg = s.alg := rfl
@[simp] theorem State.inFlight_digits (w : Word) (s : State) : (s.inFlight w).digits = s.digits := rfl
@[simp] theorem State.inFlight_ctrLo (w : Word) (s : State) : (s.inFlight w).ctrLo = s.ctrLo := rfl
@[simp] theorem State.inFlight_ctrHi (w : Word) (s : State) : (s.inFlight w).ctrHi = s.ctrHi := rfl
@[simp] theorem State.inFlight_binlen (w : Word) (s : State) : (s.inFlight w).binlen = s.binlen := rfl
@[simp] theorem State.inFlight_txtlen (w : Word) (s : State) : (s.inFlight w).txtlen = s.txtlen := rfl
@[simp] theorem State.inFlight_diglen (w : Word) (s : State) : (s.inFlight w).diglen = s.diglen := rfl
@[simp] theorem State.inFlight_pwdlen (w : Word) (s : State) : (s.inFlight w).pwdlen = s.pwdlen := rfl
@[simp] theorem State.inFlight_truncval (w : Word) (s : State) : (s.inFlight w).truncval = s.truncval := rfl
@[simp] theorem State.inFlight_code (w : Word) (s : State) : (s.inFlight w).code = s.code := rfl
@[simp] theorem State.inFlight_mem (w : Word) (s : State) : (s.inFlight w).mem = s.mem := rfl
@[simp] theorem State.inFlight_residue (w : Word) (s : State) : (s.inFlight w).residue = s.residue := rfl
@[simp] theorem State.inFlight_draws (w : Word) (s : State) : (s.inFlight w).draws = s.draws := rfl
@[simp] theorem State.inFlight_inputs (w : Word) (s : State) : (s.inFlight w).inputs = .sequencer :: s.inputs := rfl
@[simp] theorem State.inFlight_response (w : Word) (s : State) : (s.inFlight w).response = s.response := rfl

/-! ### `deliverByte` -/

@[simp] theorem deliverByte_ie (b : Byte) (s : State) : (deliverByte b s).ie = s.ie := rfl
@[simp] theorem deliverByte_busy (b : Byte) (s : State) : (deliverByte b s).busy = s.busy := rfl
@[simp] theorem deliverByte_done (b : Byte) (s : State) : (deliverByte b s).done = s.done := rfl
@[simp] theorem deliverByte_err (b : Byte) (s : State) : (deliverByte b s).err = s.err := rfl
@[simp] theorem deliverByte_hzd (b : Byte) (s : State) : (deliverByte b s).hzd = s.hzd := rfl
@[simp] theorem deliverByte_cmdreg (b : Byte) (s : State) : (deliverByte b s).cmdreg = s.cmdreg := rfl
@[simp] theorem deliverByte_errcode (b : Byte) (s : State) : (deliverByte b s).errcode = s.errcode := rfl
@[simp] theorem deliverByte_errinfo (b : Byte) (s : State) : (deliverByte b s).errinfo = s.errinfo := rfl
@[simp] theorem deliverByte_alg (b : Byte) (s : State) : (deliverByte b s).alg = s.alg := rfl
@[simp] theorem deliverByte_digits (b : Byte) (s : State) : (deliverByte b s).digits = s.digits := rfl
@[simp] theorem deliverByte_ctrLo (b : Byte) (s : State) : (deliverByte b s).ctrLo = s.ctrLo := rfl
@[simp] theorem deliverByte_ctrHi (b : Byte) (s : State) : (deliverByte b s).ctrHi = s.ctrHi := rfl
@[simp] theorem deliverByte_binlen (b : Byte) (s : State) : (deliverByte b s).binlen = s.binlen := rfl
@[simp] theorem deliverByte_txtlen (b : Byte) (s : State) : (deliverByte b s).txtlen = s.txtlen := rfl
@[simp] theorem deliverByte_diglen (b : Byte) (s : State) : (deliverByte b s).diglen = s.diglen := rfl
@[simp] theorem deliverByte_pwdlen (b : Byte) (s : State) : (deliverByte b s).pwdlen = s.pwdlen := rfl
@[simp] theorem deliverByte_truncval (b : Byte) (s : State) : (deliverByte b s).truncval = s.truncval := rfl
@[simp] theorem deliverByte_code (b : Byte) (s : State) : (deliverByte b s).code = s.code := rfl
@[simp] theorem deliverByte_mem (b : Byte) (s : State) : (deliverByte b s).mem = s.mem := rfl
@[simp] theorem deliverByte_residue (b : Byte) (s : State) : (deliverByte b s).residue = s.residue := rfl
@[simp] theorem deliverByte_draws (b : Byte) (s : State) : (deliverByte b s).draws = s.draws ++ [b] := rfl
@[simp] theorem deliverByte_inputs (b : Byte) (s : State) : (deliverByte b s).inputs = s.inputs := rfl
@[simp] theorem deliverByte_response (b : Byte) (s : State) : (deliverByte b s).response = s.response := rfl

/-! ### `release` of each buffer -/

@[simp] theorem State.release_ie (b : Buffer) (s : State) : (s.release b).ie = s.ie := by cases b <;> rfl
@[simp] theorem State.release_busy (b : Buffer) (s : State) : (s.release b).busy = s.busy := by cases b <;> rfl
@[simp] theorem State.release_done (b : Buffer) (s : State) : (s.release b).done = s.done := by cases b <;> rfl
@[simp] theorem State.release_err (b : Buffer) (s : State) : (s.release b).err = s.err := by cases b <;> rfl
@[simp] theorem State.release_hzd (b : Buffer) (s : State) : (s.release b).hzd = s.hzd := by cases b <;> rfl
@[simp] theorem State.release_cmdreg (b : Buffer) (s : State) : (s.release b).cmdreg = s.cmdreg := by cases b <;> rfl
@[simp] theorem State.release_errcode (b : Buffer) (s : State) : (s.release b).errcode = s.errcode := by cases b <;> rfl
@[simp] theorem State.release_errinfo (b : Buffer) (s : State) : (s.release b).errinfo = s.errinfo := by cases b <;> rfl
@[simp] theorem State.release_alg (b : Buffer) (s : State) : (s.release b).alg = s.alg := by cases b <;> rfl
@[simp] theorem State.release_digits (b : Buffer) (s : State) : (s.release b).digits = s.digits := by cases b <;> rfl
@[simp] theorem State.release_ctrLo (b : Buffer) (s : State) : (s.release b).ctrLo = s.ctrLo := by cases b <;> rfl
@[simp] theorem State.release_ctrHi (b : Buffer) (s : State) : (s.release b).ctrHi = s.ctrHi := by cases b <;> rfl
@[simp] theorem State.release_mem (b : Buffer) (s : State) : (s.release b).mem = s.mem := by cases b <;> rfl
@[simp] theorem State.release_residue (b : Buffer) (s : State) : (s.release b).residue = s.residue := by cases b <;> rfl
@[simp] theorem State.release_draws (b : Buffer) (s : State) : (s.release b).draws = s.draws := by cases b <;> rfl
@[simp] theorem State.release_inputs (b : Buffer) (s : State) : (s.release b).inputs = s.inputs := by cases b <;> rfl
@[simp] theorem State.release_response (b : Buffer) (s : State) : (s.release b).response = s.response := by cases b <;> rfl
@[simp] theorem State.release_bin_binlen (s : State) : (s.release .bin).binlen = 0 := rfl
@[simp] theorem State.release_bin_txtlen (s : State) : (s.release .bin).txtlen = s.txtlen := rfl
@[simp] theorem State.release_bin_diglen (s : State) : (s.release .bin).diglen = s.diglen := rfl
@[simp] theorem State.release_bin_pwdlen (s : State) : (s.release .bin).pwdlen = s.pwdlen := rfl
@[simp] theorem State.release_bin_truncval (s : State) : (s.release .bin).truncval = s.truncval := rfl
@[simp] theorem State.release_bin_code (s : State) : (s.release .bin).code = s.code := rfl
@[simp] theorem State.release_txt_binlen (s : State) : (s.release .txt).binlen = s.binlen := rfl
@[simp] theorem State.release_txt_txtlen (s : State) : (s.release .txt).txtlen = 0 := rfl
@[simp] theorem State.release_txt_diglen (s : State) : (s.release .txt).diglen = s.diglen := rfl
@[simp] theorem State.release_txt_pwdlen (s : State) : (s.release .txt).pwdlen = s.pwdlen := rfl
@[simp] theorem State.release_txt_truncval (s : State) : (s.release .txt).truncval = s.truncval := rfl
@[simp] theorem State.release_txt_code (s : State) : (s.release .txt).code = s.code := rfl
@[simp] theorem State.release_digest_binlen (s : State) : (s.release .digest).binlen = s.binlen := rfl
@[simp] theorem State.release_digest_txtlen (s : State) : (s.release .digest).txtlen = s.txtlen := rfl
@[simp] theorem State.release_digest_diglen (s : State) : (s.release .digest).diglen = 0 := rfl
@[simp] theorem State.release_digest_pwdlen (s : State) : (s.release .digest).pwdlen = s.pwdlen := rfl
@[simp] theorem State.release_digest_truncval (s : State) : (s.release .digest).truncval = s.truncval := rfl
@[simp] theorem State.release_digest_code (s : State) : (s.release .digest).code = s.code := rfl
@[simp] theorem State.release_pwd_binlen (s : State) : (s.release .pwd).binlen = s.binlen := rfl
@[simp] theorem State.release_pwd_txtlen (s : State) : (s.release .pwd).txtlen = s.txtlen := rfl
@[simp] theorem State.release_pwd_diglen (s : State) : (s.release .pwd).diglen = s.diglen := rfl
@[simp] theorem State.release_pwd_pwdlen (s : State) : (s.release .pwd).pwdlen = 0 := rfl
@[simp] theorem State.release_pwd_truncval (s : State) : (s.release .pwd).truncval = 0 := rfl
@[simp] theorem State.release_pwd_code (s : State) : (s.release .pwd).code = 0 := rfl

end Sys2Proof.Machine
end

