-- ==== Sys2Proof/Laws/Memory.lean ====
section
/-! SUPPORT. The laws of the buffers' memory: read after write, what a write leaves alone, the canonical form. -/

namespace Sys2Proof.Machine

/-! ### One byte -/

theorem Memory.lookup_write (m : Memory) (a a' : Nat) (b : Byte) :
    (m.write a b).lookup a' = if a' = a then some b else m.lookup a' := by
  induction m with
  | nil =>
    by_cases h : a' = a
    · simp [Memory.write, Memory.lookup, h]
    · simp [Memory.write, Memory.lookup, h, Ne.symm h]
  | cons c m ih =>
    simp only [Memory.write]
    split
    · by_cases h : a' = a
      · simp [Memory.lookup, h]
      · simp [Memory.lookup, h, Ne.symm h]
    · split
      · rename_i _ hac
        by_cases h : a' = a
        · simp [Memory.lookup, h]
        · have : ¬ c.1 = a' := by omega
          simp [Memory.lookup, h, Ne.symm h, this]
      · by_cases h : a' = a
        · have : ¬ c.1 = a := by omega
          subst h
          simp [Memory.lookup, ih, this]
        · simp [Memory.lookup, ih, h]

@[simp] theorem Memory.lookup_write_same (m : Memory) (a : Nat) (b : Byte) :
    (m.write a b).lookup a = some b := by simp [Memory.lookup_write]

theorem Memory.lookup_write_other (m : Memory) {a a' : Nat} (b : Byte) (h : a' ≠ a) :
    (m.write a b).lookup a' = m.lookup a' := by simp [Memory.lookup_write, h]

/-! ### Several bytes -/

theorem Memory.lookup_writeBytes (m : Memory) (a a' : Nat) (bs : List Byte) :
    (m.writeBytes a bs).lookup a' =
      if a ≤ a' then (bs[a' - a]?).or (m.lookup a') else m.lookup a' := by
  induction bs generalizing m a with
  | nil => simp [Memory.writeBytes]
  | cons b bs ih =>
    simp only [Memory.writeBytes, ih, Memory.lookup_write]
    by_cases h1 : a' = a
    · subst h1
      simp
    · by_cases h2 : a ≤ a'
      · have h3 : a + 1 ≤ a' := by omega
        have h4 : a' - a = (a' - (a + 1)) + 1 := by omega
        simp [h1, h2, h3, h4]
      · have h3 : ¬ a + 1 ≤ a' := by omega
        simp [h1, h2, h3]

theorem Memory.lookup_writeBytes_inside (m : Memory) (a i : Nat) (bs : List Byte) (h : i < bs.length) :
    (m.writeBytes a bs).lookup (a + i) = some bs[i] := by
  simp [Memory.lookup_writeBytes, h]

theorem Memory.lookup_writeBytes_outside (m : Memory) (a a' : Nat) (bs : List Byte)
    (h : ∀ i, i < bs.length → a' ≠ a + i) : (m.writeBytes a bs).lookup a' = m.lookup a' := by
  rw [Memory.lookup_writeBytes]
  split
  · rename_i h1
    have : bs.length ≤ a' - a := by
      by_contra h2
      exact h (a' - a) (by omega) (by omega)
    simp [List.getElem?_eq_none this]
  · rfl

/-! ### The canonical form -/

theorem Memory.wf_cons (c : Host.Cell) (m : Memory) :
    Memory.wf (c :: m) = true ↔ (∀ d ∈ m.head?, c.1 < d.1) ∧ Memory.wf m = true := by
  cases m with
  | nil => simp [Memory.wf]
  | cons d m => simp [Memory.wf]

/-- In a canonical memory every later offset lies above the first. -/
theorem Memory.lt_of_wf_cons {c : Host.Cell} {m : Memory} (h : Memory.wf (c :: m) = true) :
    ∀ d ∈ m, c.1 < d.1 := by
  induction m generalizing c with
  | nil => simp
  | cons e m ih =>
    simp only [Memory.wf, Bool.and_eq_true, decide_eq_true_eq] at h
    intro d hd
    rcases List.mem_cons.mp hd with rfl | hd
    · exact h.1
    · exact lt_trans h.1 (ih h.2 d hd)

theorem Memory.head_write (m : Memory) (a : Nat) (b : Byte) :
    ∀ d ∈ (m.write a b).head?, d.1 = a ∨ ∃ c ∈ m.head?, d.1 = c.1 ∧ c.1 < a := by
  cases m with
  | nil => simp [Memory.write]
  | cons c m =>
    simp only [Memory.write]
    split
    · simp
    · split
      · simp
      · rename_i h1 h2
        intro d hd
        simp at hd
        right
        exact ⟨c, by simp, by rw [← hd], by omega⟩

theorem Memory.wf_write (m : Memory) (a : Nat) (b : Byte) (h : m.wf = true) : (m.write a b).wf = true := by
  induction m with
  | nil => simp [Memory.write, Memory.wf]
  | cons c m ih =>
    simp only [Memory.write]
    rw [Memory.wf_cons] at h
    split
    · rename_i h1
      rw [Memory.wf_cons]
      refine ⟨by simpa using h1, ?_⟩
      rw [Memory.wf_cons]
      exact h
    · split
      · rename_i _ h2
        rw [Memory.wf_cons]
        refine ⟨?_, h.2⟩
        intro d hd
        have := h.1 d hd
        simpa [h2] using this
      · rename_i h1 h2
        rw [Memory.wf_cons]
        refine ⟨?_, ih h.2⟩
        intro d hd
        rcases Memory.head_write m a b d hd with h3 | ⟨e, he, h4, _⟩
        · omega
        · have := h.1 e he
          omega

theorem Memory.wf_writeBytes (m : Memory) (a : Nat) (bs : List Byte) (h : m.wf = true) :
    (m.writeBytes a bs).wf = true := by
  induction bs generalizing m a with
  | nil => exact h
  | cons b bs ih => exact ih _ _ (Memory.wf_write m a b h)

/-- A write lists no offset but its own and those already listed. -/
theorem Memory.mem_write {m : Memory} {a : Nat} {b : Byte} {c : Host.Cell} (h : c ∈ m.write a b) :
    c = (a, b) ∨ c ∈ m := by
  induction m with
  | nil => simpa [Memory.write] using h
  | cons d m ih =>
    simp only [Memory.write] at h
    split at h
    · simpa using h
    · split at h
      · rcases List.mem_cons.mp h with h | h
        · exact .inl h
        · exact .inr (List.mem_cons_of_mem _ h)
      · rcases List.mem_cons.mp h with h | h
        · exact .inr (by simp [h])
        · rcases ih h with h | h
          · exact .inl h
          · exact .inr (List.mem_cons_of_mem _ h)

theorem Memory.mem_writeBytes {m : Memory} {a : Nat} {bs : List Byte} {c : Host.Cell}
    (h : c ∈ m.writeBytes a bs) : (∃ i, i < bs.length ∧ c.1 = a + i) ∨ c ∈ m := by
  induction bs generalizing m a with
  | nil => exact .inr h
  | cons b bs ih =>
    rcases ih h with ⟨i, hi, hc⟩ | h
    · exact .inl ⟨i + 1, by simpa using hi, by omega⟩
    · rcases Memory.mem_write h with h | h
      · exact .inl ⟨0, by simp, by simp [h]⟩
      · exact .inr h

theorem Memory.lookup_eq_none_of_lt {m : Memory} {a : Nat} (h : ∀ d ∈ m, a < d.1) : m.lookup a = none := by
  induction m with
  | nil => rfl
  | cons c m ih =>
    have h1 : a < c.1 := h c (by simp)
    have : ¬ c.1 = a := by omega
    simp [Memory.lookup, this, ih fun d hd => h d (List.mem_cons_of_mem _ hd)]

/-- Two canonical memories that read alike at every offset are equal. -/
theorem Memory.ext_of_wf {m n : Memory} (hm : m.wf = true) (hn : n.wf = true)
    (h : ∀ a, m.lookup a = n.lookup a) : m = n := by
  induction m generalizing n with
  | nil =>
    cases n with
    | nil => rfl
    | cons d n => have := h d.1; simp [Memory.lookup] at this
  | cons c m ih =>
    cases n with
    | nil => have := h c.1; simp [Memory.lookup] at this
    | cons d n =>
      have hcm := Memory.lt_of_wf_cons hm
      have hdn := Memory.lt_of_wf_cons hn
      have hcd : c.1 = d.1 := by
        rcases lt_trichotomy c.1 d.1 with hlt | heq | hgt
        · have h1 := h c.1
          have h2 : Memory.lookup (d :: n) c.1 = none :=
            Memory.lookup_eq_none_of_lt (by
              intro e he
              rcases List.mem_cons.mp he with rfl | he
              · exact hlt
              · exact lt_trans hlt (hdn e he))
          rw [h2] at h1
          simp [Memory.lookup] at h1
        · exact heq
        · have h1 := h d.1
          have h2 : Memory.lookup (c :: m) d.1 = none :=
            Memory.lookup_eq_none_of_lt (by
              intro e he
              rcases List.mem_cons.mp he with rfl | he
              · exact hgt
              · exact lt_trans hgt (hcm e he))
          rw [h2] at h1
          simp [Memory.lookup] at h1
      have hval : c.2 = d.2 := by
        have h1 := h c.1
        simpa [Memory.lookup, hcd] using h1
      have htail : m = n := by
        refine ih ((Memory.wf_cons c m).mp hm).2 ((Memory.wf_cons d n).mp hn).2 fun a => ?_
        by_cases ha : a = c.1
        · rw [Memory.lookup_eq_none_of_lt (fun e he => ha ▸ hcm e he),
            Memory.lookup_eq_none_of_lt (fun e he => ha ▸ hcd ▸ hdn e he)]
        · have h1 := h a
          have h2 : ¬ c.1 = a := fun h => ha h.symm
          have h3 : ¬ d.1 = a := fun h => ha (by omega)
          simpa [Memory.lookup, h2, h3] using h1
      rw [htail, Prod.ext hcd hval]

/-! ### Buffers -/

theorem Buffer.mem_all (b : Buffer) : b ∈ Buffer.all := by cases b <;> decide

/-- Two places in buffers with the same offset are the same place. -/
theorem Buffer.place_inj {b c : Buffer} {i j : Nat} (hi : i < b.capacity) (hj : j < c.capacity)
    (h : b.base + i = c.base + j) : b = c ∧ i = j := by
  cases b <;> cases c <;>
    simp [Buffer.base, Buffer.capacity, Config.binMax, Config.txtMax, Config.digestMax, Config.pwdMax] at hi hj h ⊢ <;>
    omega

@[simp] theorem State.bytes_length (s : State) (b : Buffer) (n : Nat) : (s.bytes b n).length = n := by
  simp [State.bytes]

@[simp] theorem State.getElem_bytes (s : State) (b : Buffer) (n i : Nat) (h : i < (s.bytes b n).length) :
    (s.bytes b n)[i] = s.byte b i := by simp [State.bytes]

theorem State.readByte_congr {s t : State} {a : Nat} (hm : t.mem.lookup a = s.mem.lookup a)
    (hr : t.residue = s.residue) : t.readByte a = s.readByte a := by
  simp [State.readByte, hm, hr]

/-- Reading depends on the memory and the residue alone. -/
theorem State.readByte_of_eq {s t : State} (hm : t.mem = s.mem) (hr : t.residue = s.residue) (a : Nat) :
    t.readByte a = s.readByte a := State.readByte_congr (by rw [hm]) hr

theorem State.bytes_of_eq {s t : State} (hm : t.mem = s.mem) (hr : t.residue = s.residue) (b : Buffer) (n : Nat) :
    t.bytes b n = s.bytes b n := by
  refine List.ext_getElem (by simp) fun i h1 h2 => ?_
  simp [State.byte, State.readByte_of_eq hm hr]

theorem State.writeByte_readByte (s : State) (b : Buffer) (i : Nat) (v : Byte) (a : Nat) :
    (s.writeByte b i v).readByte a = if a = b.base + i then v else s.readByte a := by
  by_cases h : a = b.base + i
  · simp [State.readByte, h]
  · simp [State.readByte, h, Memory.lookup_write_other _ _ h]

/-- What `writeBuffer` leaves alone: every offset it does not store to. -/
theorem State.writeBuffer_readByte_outside (s : State) (b : Buffer) (bs : List Byte) (a : Nat)
    (h : ∀ i, i < bs.length → i < b.capacity → a ≠ b.base + i) :
    (s.writeBuffer b bs).readByte a = s.readByte a := by
  refine State.readByte_congr (Memory.lookup_writeBytes_outside _ _ _ _ ?_) rfl
  intro i hi
  simp at hi
  exact h i (by omega) (by omega)

/-- What `writeBuffer` stores. -/
theorem State.writeBuffer_byte (s : State) (b : Buffer) (bs : List Byte) (i : Nat) (h : i < bs.length)
    (hc : i < b.capacity) : (s.writeBuffer b bs).byte b i = bs[i] := by
  have h1 : i < (bs.take b.capacity).length := by simp; omega
  simp [State.byte, State.readByte, Memory.lookup_writeBytes_inside _ _ _ _ h1]

/-- The bytes `writeBuffer` stores, read back. -/
theorem State.writeBuffer_bytes (s : State) (b : Buffer) (bs : List Byte) (h : bs.length ≤ b.capacity) :
    (s.writeBuffer b bs).bytes b bs.length = bs := by
  refine List.ext_getElem (by simp) fun i h1 h2 => ?_
  rw [State.getElem_bytes, State.writeBuffer_byte s b bs i h2 (by omega)]

/-- `writeBuffer` leaves the other buffers alone. -/
theorem State.writeBuffer_byte_other (s : State) {b c : Buffer} (bs : List Byte) (i : Nat) (hbc : c ≠ b)
    (hi : i < c.capacity) : (s.writeBuffer b bs).byte c i = s.byte c i := by
  refine State.writeBuffer_readByte_outside s b bs _ fun j _ hj h => hbc ?_
  exact (Buffer.place_inj hi hj h).1

theorem State.writeBuffer_bytes_other (s : State) {b c : Buffer} (bs : List Byte) (n : Nat) (hbc : c ≠ b)
    (hn : n ≤ c.capacity) : (s.writeBuffer b bs).bytes c n = s.bytes c n := by
  refine List.ext_getElem (by simp) fun i h1 h2 => ?_
  simp at h1
  rw [State.getElem_bytes, State.getElem_bytes, State.writeBuffer_byte_other s bs i hbc (by omega)]

end Sys2Proof.Machine
end

