-- ==== Sys2Proof/Laws/Bus.lean ====
section
/-! SUPPORT. What a host offset names and what a transaction can do to the state, said once. -/

namespace Sys2Proof.Machine

/-! ### Host offsets -/

theorem named_reg (r : Reg) : Target.named r.offset 4 = some (.reg r) := by cases r <;> decide

theorem holds_iff (b : Buffer) (a : Nat) : b.holds a = true ↔ b.base ≤ a ∧ a < b.base + b.capacity := by
  simp [Buffer.holds]

theorem holds_place (b c : Buffer) (i : Nat) (h : i < b.capacity) : c.holds (b.base + i) = decide (c = b) := by
  rw [Bool.eq_iff_iff, holds_iff, decide_eq_true_eq]
  constructor
  · rintro ⟨h1, h2⟩
    exact ((Buffer.place_inj (b := c) (i := b.base + i - c.base) (by omega) h (by omega)).1)
  · rintro rfl; omega

theorem named_byte (b : Buffer) (i : Nat) (h : i < b.capacity) : Target.named (b.base + i) 1 = some (.byte b i) := by
  have : (Buffer.all.find? (·.holds (b.base + i))) = some b := by
    simp only [holds_place b _ i h]
    cases b <;> decide
  simp [Target.named, this]

/-- What an access can name. -/
theorem named_cases {addr n t} (h : Target.named addr n = some t) :
    (∃ r, addr = r.offset ∧ n = 4 ∧ t = .reg r) ∨
      ∃ b i, addr = b.base + i ∧ n = 1 ∧ i < b.capacity ∧ t = .byte b i := by
  unfold Target.named at h
  split at h
  · rename_i hn
    simp only [Option.map_eq_some_iff] at h
    obtain ⟨r, hr, rfl⟩ := h
    have := List.find?_some hr
    exact .inl ⟨r, (beq_iff_eq.mp this).symm, hn, rfl⟩
  · split at h
    · rename_i hn
      simp only [Option.map_eq_some_iff] at h
      obtain ⟨b, hb, rfl⟩ := h
      have := (holds_iff b addr).mp (List.find?_some (p := fun x : Buffer => x.holds addr) hb)
      exact .inr ⟨b, addr - b.base, by omega, hn, by omega, rfl⟩
    · cases h

theorem allowed_some {k addr n t} :
    Target.allowed k addr n = some t ↔ Target.named addr n = some t ∧ Target.permits k t = true := by
  simp [Target.allowed, Option.filter_eq_some_iff]

theorem lookup_unmapped {m : Memory} (h : ∀ c ∈ m, mapped c.1 = true) {a : Nat} (ha : mapped a = false) :
    m.lookup a = none := by
  induction m with
  | nil => rfl
  | cons c m ih =>
    have : c.1 ≠ a := by intro h1; have := h c (by simp); rw [h1, ha] at this; cases this
    simp [Memory.lookup, this, ih fun d hd => h d (by simp [hd])]

theorem mapped_false {a : Nat} (h : mapped a = false) : ∀ b : Buffer, ∀ i, i < b.capacity → a ≠ b.base + i := by
  intro b i hi he
  have : mapped a = true := by
    refine List.any_eq_true.mpr ⟨b, Buffer.mem_all b, ?_⟩
    rw [holds_iff]; omega
  rw [h] at this; cases this

theorem mapped_true {a : Nat} (h : mapped a = true) : ∃ b : Buffer, ∃ i, i < b.capacity ∧ a = b.base + i := by
  obtain ⟨b, _, hb⟩ := List.any_eq_true.mp h
  rw [holds_iff] at hb
  exact ⟨b, a - b.base, by omega, by omega⟩

/-! ### Transactions -/

/-- What a transaction can do to the state. -/
theorem transact_cases (x : Txn) (s : State) :
    (transact x s).2 = s ∨ (s.busy = true ∧ (transact x s).2 = s.hazard) ∨
    (s.busy = false ∧ ∃ r v, x = .write r.offset 4 v ∧ r.readOnly = false ∧
      (transact x s).2 = s.writeReg r v) ∨
    (s.busy = false ∧ ∃ b i v, x = .write (b.base + i) 1 v ∧ b ≠ .pwd ∧ i < b.capacity ∧
      (transact x s).2 = s.writeByte b i (v.setWidth 8)) := by
  cases x with
  | read addr n =>
    simp only [transact, memRead]
    split
    · exact .inl rfl
    · exact .inl rfl
    · split
      · rename_i hb; exact .inr (.inl ⟨hb, rfl⟩)
      · exact .inl rfl
  | write addr n v =>
    simp only [transact, memWrite]
    split
    · exact .inl rfl
    · rename_i r hr
      obtain ⟨hn, hp⟩ := allowed_some.mp hr
      rcases named_cases hn with ⟨r', ha, hn4, hr'⟩ | ⟨_, _, _, _, _, h⟩
      · cases hr'
        cases hb : s.busy
        · subst ha; subst hn4
          exact .inr (.inr (.inl ⟨rfl, r, v, rfl, by simpa [Target.permits] using hp, by simp⟩))
        · exact .inr (.inl ⟨rfl, by simp⟩)
      · cases h
    · rename_i b i hr
      obtain ⟨hn, hp⟩ := allowed_some.mp hr
      rcases named_cases hn with ⟨_, _, _, h⟩ | ⟨b', i', ha, hn4, hi, hr'⟩
      · cases h
      · cases hr'
        cases hb : s.busy
        · subst ha; subst hn4
          exact .inr (.inr (.inr ⟨rfl, b, i, v, rfl, by simpa [Target.permits] using hp, hi, by simp⟩))
        · exact .inr (.inl ⟨rfl, by simp⟩)

theorem readReg_at (r : Reg) (s : State) : memRead r.offset 4 s = (.value (s.readReg r), s) := by
  have : Target.allowed .read r.offset 4 = some (.reg r) := allowed_some.mpr ⟨named_reg r, rfl⟩
  simp [memRead, this]

theorem write_at (r : Reg) (hr : r.readOnly = false) (v) (s : State) (hb : s.busy = false) :
    memWrite r.offset 4 v s = (.ok, s.writeReg r v) := by
  have : Target.allowed .write r.offset 4 = some (.reg r) :=
    allowed_some.mpr ⟨named_reg r, by simp [Target.permits, hr]⟩
  simp [memWrite, this, hb]

/-! ### The flags through a register write -/

theorem writeReg_busy (r v) (s : State) :
    (s.writeReg r v).busy = s.busy ∨ (r = .cmd ∧ legal v = true ∧ s.writeReg r v = s.accept v) := by
  cases r <;> simp only [State.writeReg]
  case cmd =>
    unfold State.issue
    split
    · rename_i h; exact .inr ⟨trivial, h, rfl⟩
    · exact .inl rfl
  all_goals left
  all_goals first | trivial | (split <;> rfl)

theorem writeReg_err (r v) (s : State) : (s.writeReg r v).err = true ∨ (s.writeReg r v).err = s.err ∨
    (r = .status ∧ v.getLsbD 2 = true ∧ (s.writeReg r v).errcode = 0 ∧ (s.writeReg r v).errinfo = 0) := by
  cases r <;> simp only [State.writeReg]
  case status =>
    cases h : v.getLsbD 2
    · right; left; simp only [State.clearFlags_err, h]; simp
    · right; right; simp only [State.clearFlags_errcode, State.clearFlags_errinfo, h]; simp
  case cmd =>
    unfold State.issue
    split
    · exact .inr (.inl rfl)
    · exact .inl rfl
  all_goals first | exact .inr (.inl trivial) | exact .inr (.inl rfl) |
    (split <;> first | exact .inr (.inl rfl) | exact .inl rfl)

theorem writeReg_irq (r v) (s : State) (h : s.irq = false) :
    (s.writeReg r v).irq = false ∨ (r = .ctrl ∧ v.getLsbD 0 = true ∧ s.done = true) := by
  cases r <;> simp only [State.writeReg]
  case ctrl =>
    cases h1 : v.getLsbD 0 <;> cases h2 : s.done <;> simp [State.irq]
  case status =>
    left
    simp only [State.irq, State.clearFlags_ie, State.clearFlags_done] at *
    cases hie : s.ie <;> cases hd : s.done <;> simp_all
  case cmd =>
    left
    unfold State.issue
    split
    · simp [State.irq]
    · exact h
  all_goals left
  all_goals first | exact h | (split <;> exact h)

end Sys2Proof.Machine
end

