-- ==== Sys2Proof/Laws/Hash.lean ====
section
/-! SUPPORT. The laws of the hash functions, HMAC, truncation and rendering that later proofs cite. -/

namespace Sys2Proof.Machine

/-! ### Words and schedules -/

theorem wordBytes_length {w : Nat} (ws : List (BitVec w)) : (wordBytes ws).length = w / 8 * ws.length := by
  induction ws with
  | nil => rfl
  | cons x ws ih =>
    rw [wordBytes, List.flatMap_cons, List.length_append, beBytes_length]
    rw [wordBytes] at ih
    rw [ih, List.length_cons]
    ring

@[simp] theorem extendSchedule_length {w : Nat} (next : List (BitVec w) → BitVec w) (k : Nat) (ws : List (BitVec w)) :
    (extendSchedule next k ws).length = k + ws.length := by
  induction k generalizing ws with
  | zero => simp [extendSchedule]
  | succ k ih => simp [extendSchedule, ih]; omega

/-- A schedule keeps the words it was extended from, below the new ones. -/
theorem extendSchedule_old {w : Nat} (next : List (BitVec w) → BitVec w) (k : Nat) (ws : List (BitVec w)) (i : Nat) :
    (extendSchedule next k ws)[k + i]? = ws[i]? := by
  induction k generalizing ws i with
  | zero => simp [extendSchedule]
  | succ k ih =>
    rw [extendSchedule, show k + 1 + i = k + (i + 1) by omega, ih]
    simp

/-- Every new word is `next` of the words before it. -/
theorem extendSchedule_new {w : Nat} (next : List (BitVec w) → BitVec w) (k : Nat) (ws : List (BitVec w)) (i : Nat)
    (h : i < k) :
    (extendSchedule next k ws)[i]? = some (next ((extendSchedule next k ws).drop (i + 1))) := by
  induction k generalizing ws with
  | zero => omega
  | succ k ih =>
    rw [extendSchedule]
    rcases Nat.lt_or_ge i k with h1 | h1
    · exact ih _ h1
    · have : i = k := by omega
      subst this
      have h2 := extendSchedule_old next i (next ws :: ws) 0
      simp only [Nat.add_zero, List.getElem?_cons_zero] at h2
      rw [h2]
      congr 2
      refine (List.ext_getElem? fun j => ?_)
      rw [List.getElem?_drop]
      have h3 := extendSchedule_old next i (next ws :: ws) (j + 1)
      simp only [List.getElem?_cons_succ] at h3
      rw [← h3]
      congr 1
      omega

/-! ### Digest lengths -/

@[simp] theorem sha1_length (m : List Byte) : (sha1 m).length = 20 := by simp [sha1, wordBytes_length]

@[simp] theorem sha256_length (m : List Byte) : (sha256 m).length = 32 := by
  simp [sha256, sha2Digest, wordBytes_length]

@[simp] theorem sha512_length (m : List Byte) : (sha512 m).length = 64 := by
  simp [sha512, sha2Digest, wordBytes_length]

@[simp] theorem hashOf_length (alg : HashAlg) (m : List Byte) : (hashOf alg m).length = alg.digestLength := by
  cases alg <;> simp [hashOf, HashAlg.digestLength]

@[simp] theorem hmac_length (alg : HashAlg) (key msg : List Byte) : (hmac alg key msg).length = alg.digestLength := by
  simp [hmac]

theorem HashAlg.digestLength_le_blockLength (alg : HashAlg) : alg.digestLength ≤ alg.blockLength := by
  cases alg <;> decide

theorem HashAlg.digestLength_le (alg : HashAlg) : alg.digestLength ≤ Buffer.digest.capacity := by
  cases alg <;> decide

theorem hmacKeyBlock_length (alg : HashAlg) (key : List Byte) : (hmacKeyBlock alg key).length = alg.blockLength := by
  have := alg.digestLength_le_blockLength
  simp only [hmacKeyBlock, List.length_append, List.length_replicate]
  split <;> (try rw [hashOf_length]) <;> omega

/-! ### Truncation and rendering -/

@[simp] theorem renderDigits_length (code n : Nat) : (renderDigits code n).length = n := by simp [renderDigits]

theorem renderDigits_succ (code n : Nat) :
    renderDigits code (n + 1) = BitVec.ofNat 8 (0x30 + code / 10 ^ n % 10) :: renderDigits code n := by
  simp only [renderDigits, List.range_succ_eq_map, List.map_cons, List.map_map]
  congr 1
  refine List.map_congr_left fun i _ => ?_
  have : n + 1 - 1 - i.succ = n - 1 - i := by omega
  simp only [Function.comp_apply, this]

theorem renderDigit_toNat (x : Nat) : (BitVec.ofNat 8 (0x30 + x % 10)).toNat = 0x30 + x % 10 := by
  simp only [BitVec.toNat_ofNat]
  omega

/-- The digits, read as a decimal number. -/
theorem renderDigits_value (code n x : Nat) :
    (renderDigits code n).foldl (fun x c => x * 10 + (c.toNat - 0x30)) x = x * 10 ^ n + code % 10 ^ n := by
  induction n generalizing x with
  | zero => simp [renderDigits, Nat.mod_one]
  | succ n ih =>
    rw [renderDigits_succ, List.foldl_cons, ih, renderDigit_toNat]
    have h := Nat.mod_mul (a := 10 ^ n) (b := 10) (x := code)
    rw [pow_succ, h]
    have : 0x30 + code / 10 ^ n % 10 - 0x30 = code / 10 ^ n % 10 := by omega
    rw [this]
    ring

theorem renderDigits_range (code n : Nat) : ∀ c ∈ renderDigits code n, 0x30 ≤ c.toNat ∧ c.toNat ≤ 0x39 := by
  intro c hc
  simp only [renderDigits, List.mem_map] at hc
  obtain ⟨i, _, rfl⟩ := hc
  rw [renderDigit_toNat]
  omega

theorem renderCode_lt (x : BitVec 31) (n : Nat) : renderCode x.toNat n < 2 ^ 31 :=
  lt_of_le_of_lt (Nat.mod_le _ _) x.isLt

/-! ### Schedules and keys by parts -/

/-- The sixteen words of a block. -/
theorem sched_words {w : Nat} (hw : 0 < w / 8) (block : List Byte) (h : block.length = 16 * (w / 8)) :
    (blockWords w block).length = 16 ∧
      ∀ t, t < 16 → (blockWords w block).getD t 0 = BitVec.ofNat w (be (slice block (w / 8 * t) (w / 8))) := by
  refine ⟨?_, fun t ht => ?_⟩
  · rw [blockWords, List.length_map, chunks_length hw, h]
    rw [show 16 * (w/8) + (w/8 - 1) = (w/8-1) + (w/8) * 16 by ring,
      Nat.add_mul_div_left _ _ hw, Nat.div_eq_of_lt (by omega)]
  · rw [blockWords, List.getD_eq_getElem?_getD, List.getElem?_map, getElem?_chunks hw _ _ (by rw [h]; nlinarith)]
    rfl

/-- A schedule in the order of its words: the block's sixteen, then each by `next` of those before it. -/
theorem sched_gen {w : Nat} (next : List (BitVec w) → BitVec w) (k : Nat) (ws : List (BitVec w))
    (h : ws.length = 16) :
    let W := (extendSchedule next k ws.reverse).reverse
    W.length = 16 + k ∧ (∀ t, t < 16 → W.getD t 0 = ws.getD t 0) ∧
    (∀ t, 16 ≤ t → t < 16 + k → ∃ older, W.getD t 0 = next older ∧
      ∀ j, 0 < j → j ≤ 16 → older.getD (j - 1) 0 = W.getD (t - j) 0) := by
  intro W
  have hl : (extendSchedule next k ws.reverse).length = k + 16 := by simp [h]
  have hrev : ∀ t, t < 16 + k → W.getD t 0 = ((extendSchedule next k ws.reverse)[15 + k - t]?).getD 0 := by
    intro t ht
    rw [List.getD_eq_getElem?_getD, List.getElem?_reverse (by omega), hl]
    congr 2; omega
  refine ⟨by simp [W, h]; omega, fun t ht => ?_, fun t h1 h2 => ?_⟩
  · rw [hrev t (by omega), show 15 + k - t = k + (15 - t) by omega, extendSchedule_old,
      List.getElem?_reverse (by omega), h, List.getD_eq_getElem?_getD]
    congr 2; omega
  · refine ⟨(extendSchedule next k ws.reverse).drop (15 + k - t + 1), ?_, fun j hj hj' => ?_⟩
    · rw [hrev t h2, extendSchedule_new _ _ _ _ (by omega)]; rfl
    · rw [hrev (t - j) (by omega), List.getD_eq_getElem?_getD, List.getElem?_drop]
      congr 2; omega

/-- A fold as the sequence of the values it goes through. -/
theorem foldl_trace {σ α : Type} (f : σ → α → σ) (xs : List α) (s : σ) :
    ∃ v : Nat → σ, v 0 = s ∧ (∀ t (h : t < xs.length), v (t + 1) = f (v t) xs[t]) ∧ v xs.length = xs.foldl f s := by
  refine ⟨fun t => (xs.take t).foldl f s, rfl, fun t h => ?_, by simp⟩
  show (xs.take (t + 1)).foldl f s = _
  rw [List.take_succ_eq_append_getElem h, List.foldl_append]
  rfl

/-- A fold over the blocks of a string of whole blocks, as the sequence of the chaining values. -/
theorem foldl_chunks_trace {σ : Type} (f : σ → List Byte → σ) (s : σ) {k : Nat} (hk : 0 < k) (p : List Byte)
    (hp : p.length % k = 0) :
    ∃ v : Nat → σ, v 0 = s ∧ (∀ j, j < p.length / k → v (j + 1) = f (v j) (slice p (k * j) k)) ∧
      v (p.length / k) = (chunks k p).foldl f s := by
  obtain ⟨n, hn⟩ := Nat.dvd_of_mod_eq_zero hp
  have hq : p.length / k = n := by rw [hn, Nat.mul_div_cancel_left _ hk]
  have hl : (chunks k p).length = n := by
    rw [chunks_length hk, hn, Nat.add_comm, Nat.add_mul_div_left _ _ hk, Nat.div_eq_of_lt (by omega), Nat.zero_add]
  obtain ⟨v, h0, h1, h2⟩ := foldl_trace f (chunks k p) s
  refine ⟨v, h0, fun j hj => ?_, by rw [hq, ← hl]; exact h2⟩
  rw [hq] at hj
  rw [h1 j (by omega)]
  congr 1
  have hlt : k * j < p.length := by rw [hn]; exact Nat.mul_lt_mul_of_pos_left hj hk
  have := getElem?_chunks hk p j hlt
  rw [List.getElem?_eq_getElem (by omega)] at this
  exact Option.some.inj this

/-- A padded message is whole blocks. -/
theorem padMessage_blocks (m : List Byte) {B lb : Nat} (hB : 0 < B) : (padMessage m B lb).length % B = 0 := by
  have h1 : (padMessage m B lb).length = m.length + 1 + lb + (B - (m.length + 1 + lb) % B) % B := by
    simp [padMessage]; omega
  have h2 := Nat.mod_lt (m.length + 1 + lb) hB
  have h3 := Nat.div_add_mod (m.length + 1 + lb) B
  rw [h1]
  rcases Nat.eq_zero_or_pos ((m.length + 1 + lb) % B) with h | h
  · rw [h, Nat.sub_zero, Nat.mod_self, Nat.add_zero, h]
  · rw [Nat.mod_eq_of_lt (show B - (m.length + 1 + lb) % B < B by omega)]
    have h4 : m.length + 1 + lb + (B - (m.length + 1 + lb) % B) = B * ((m.length + 1 + lb) / B + 1) := by
      rw [Nat.mul_add, Nat.mul_one]; omega
    rw [h4, Nat.mul_mod_right]

theorem rotl_eq {w : Nat} (x : BitVec w) (n : Nat) (h : n < w) : rotl x n = x.rotateLeft n := by
  rw [BitVec.rotateLeft_eq_rotateLeftAux_of_lt h]; rfl

theorem rotr_eq {w : Nat} (x : BitVec w) (n : Nat) (h : n < w) : rotr x n = x.rotateRight n := by
  rw [BitVec.rotateRight_eq_rotateRightAux_of_lt h]; rfl

/-- HMAC depends on the key through its block alone. -/
theorem hmac_congr (alg) (k k' msg : List Byte) (h : hmacKeyBlock alg k = hmacKeyBlock alg k') :
    hmac alg k msg = hmac alg k' msg := by
  simp [hmac, h]

/-! ### Four bytes -/

theorem be4 (a b c d : Byte) : be [a,b,c,d] = a.toNat * 2 ^ 24 + b.toNat * 2 ^ 16 + c.toNat * 2 ^ 8 + d.toNat := by
  simp [be]; omega

theorem slice4 (d : List Byte) (o : Nat) (h : o + 3 < d.length) :
    slice d o 4 = [d.getD o 0, d.getD (o+1) 0, d.getD (o+2) 0, d.getD (o+3) 0] := by
  refine List.ext_getElem (by simp; omega) fun i h1 h2 => ?_
  simp at h2
  simp only [slice, List.getElem_take, List.getElem_drop]
  obtain rfl | rfl | rfl | rfl : i = 0 ∨ i = 1 ∨ i = 2 ∨ i = 3 := by omega
  all_goals simp [List.getD_eq_getElem?_getD, List.getElem?_eq_getElem (show o + 3 < d.length from h),
    List.getElem?_eq_getElem (show o + 2 < d.length by omega),
    List.getElem?_eq_getElem (show o + 1 < d.length by omega), List.getElem?_eq_getElem (show o < d.length by omega)]

end Sys2Proof.Machine
end

