-- ==== Sys2Proof/Laws/Exec.lean ====
section
/-! SUPPORT. What a command can do, said once: what a rule comes to, and what every command leaves alone. -/

namespace Sys2Proof.Machine

/-! ### What no rule writes -/

/-- `t` agrees with `s` on everything that no command's rule writes. -/
structure SameHost (s t : State) : Prop where
  ie : t.ie = s.ie
  hzd : t.hzd = s.hzd
  cmdreg : t.cmdreg = s.cmdreg
  alg : t.alg = s.alg
  digits : t.digits = s.digits
  ctrLo : t.ctrLo = s.ctrLo
  ctrHi : t.ctrHi = s.ctrHi
  residue : t.residue = s.residue
  inputs : t.inputs = s.inputs
  response : t.response = s.response
  err : t.err = s.err
  errcode : t.errcode = s.errcode
  errinfo : t.errinfo = s.errinfo
  busy : t.busy = s.busy
  done : t.done = s.done

theorem SameHost.refl (s : State) : SameHost s s := by constructor <;> rfl

theorem SameHost.trans {s t u : State} (h : SameHost s t) (g : SameHost t u) : SameHost s u := by
  constructor
  all_goals first
    | exact g.ie.trans h.ie | exact g.hzd.trans h.hzd | exact g.cmdreg.trans h.cmdreg | exact g.alg.trans h.alg
    | exact g.digits.trans h.digits | exact g.ctrLo.trans h.ctrLo | exact g.ctrHi.trans h.ctrHi
    | exact g.residue.trans h.residue | exact g.inputs.trans h.inputs | exact g.response.trans h.response
    | exact g.err.trans h.err | exact g.errcode.trans h.errcode | exact g.errinfo.trans h.errinfo
    | exact g.busy.trans h.busy | exact g.done.trans h.done

theorem eraseBuffer_same {b s t} (h : eraseBuffer b s = some t) : SameHost s t := by
  unfold eraseBuffer at h
  split at h
  · cases h
  · cases h; constructor <;> simp

theorem eraseIf_same {sel b s t} (h : eraseIfSelected sel b s = some t) : SameHost s t := by
  unfold eraseIfSelected at h
  split at h
  · exact eraseBuffer_same h
  · cases h; exact .refl s

theorem eraseSelected_same {sel s t} (h : eraseSelected sel s = some t) : SameHost s t := by
  simp only [eraseSelected, Option.bind_eq_some_iff] at h
  obtain ⟨c, ⟨b, ⟨a, h1, h2⟩, h3⟩, h4⟩ := h
  exact (((eraseIf_same h1).trans (eraseIf_same h2)).trans (eraseIf_same h3)).trans (eraseIf_same h4)

/-! ### Completion -/

theorem complete_written (s s' : State) : complete (.written s') s = s'.finish := rfl

theorem complete_raised (k info) (s : State) : complete (.raised k info) s = (s.record k info).finish := rfl

/-- What the rule of a command other than ERASE comes to. -/
theorem result_cases (s : State) :
    ∀ r ∈ [encodeResult s, decodeResult s, truncResult s, hmacResult s, hotpResult s],
    (∃ k info, r = .raised k info) ∨ ∃ s', SameHost s s' ∧ r = .written s' := by
  intro r hr
  simp only [List.mem_cons, List.not_mem_nil, or_false] at hr
  rcases hr with rfl | rfl | rfl | rfl | rfl
  · right; refine ⟨_, ?_, rfl⟩; constructor <;> rfl
  · unfold decodeResult
    split
    · right; refine ⟨_, ?_, rfl⟩; constructor <;> rfl
    · left; exact ⟨_, _, rfl⟩
  · unfold truncResult
    split
    · left; exact ⟨_, _, rfl⟩
    · right; refine ⟨_, ?_, rfl⟩; constructor <;> simp
  · unfold hmacResult
    split
    · left; exact ⟨_, _, rfl⟩
    · right; refine ⟨_, ?_, rfl⟩; constructor <;> simp
  · unfold hotpResult
    split
    · left; exact ⟨_, _, rfl⟩
    · right; refine ⟨_, ?_, rfl⟩; constructor <;> simp

/-- What a command can do: wait, record an error, or make its writes and complete. -/
theorem exec_cases {i s t} (h : exec i s = .next t) :
    t = s ∨ (∃ k info, t = (s.record k info).finish) ∨ ∃ s', SameHost s s' ∧ t = s'.finish := by
  have key : ∀ r ∈ [encodeResult s, decodeResult s, truncResult s, hmacResult s, hotpResult s],
      Host.Outcome.next (complete r s) = (Host.Outcome.next t : Host.Outcome State Fault Refusal) →
      (∃ k info, t = (s.record k info).finish) ∨ ∃ s', SameHost s s' ∧ t = s'.finish := by
    intro r hr h
    injection h with h
    rcases result_cases s r hr with ⟨k, info, rfl⟩ | ⟨s', hs, rfl⟩
    · exact .inl ⟨k, info, h.symm⟩
    · exact .inr ⟨s', hs, h.symm⟩
  cases i <;> simp only [exec, execB32enc, execB32dec, execErase, execTrunc, execHmac, execHotp] at h
  case erase =>
    split at h
    · rename_i s' hs
      injection h with h
      right; right; exact ⟨s', eraseSelected_same hs, h.symm⟩
    · injection h with h
      exact .inl h.symm
  all_goals exact .inr (key _ (by simp) h)

/-- What every command does to the flags. -/
theorem exec_flags {i s t} (h : exec i s = .next t) :
    t = s ∨ (t.busy = false ∧ t.done = true ∧ t.ie = s.ie ∧ (s.err = true → t.err = true)) := by
  rcases exec_cases h with rfl | ⟨k, info, rfl⟩ | ⟨s', h', rfl⟩
  · exact .inl rfl
  · exact .inr ⟨rfl, rfl, rfl, fun _ => rfl⟩
  · exact .inr ⟨rfl, rfl, h'.ie, fun h => h'.err.trans h⟩

/-! ### Values that fit -/

theorem ofNat_toNat_lt (n : Nat) (h : n < 2 ^ 32) : (BitVec.ofNat 32 n).toNat = n := by simp; omega

theorem txt_fits (s : State) (hi : s.Inv) : (enc32 s.rawBytes).length ≤ Buffer.txt.capacity := by
  have := hi.binlenRange
  simp [State.rawBytes, Buffer.capacity, Config.txtMax]; omega

theorem bin_fits (s : State) (hi : s.Inv) (out) (h : dec32 s.text = .ok out) : out.length ≤ Buffer.bin.capacity := by
  have h1 := hi.txtlenRange
  have h2 := dec32_ok_length h
  have h3 := realSymbols_length_le s.text
  simp only [State.text, State.bytes_length] at h3 h2
  rw [h2]; simp only [Buffer.capacity, Config.binMax]; omega

theorem digits_fits (s : State) (hi : s.Inv) (c) : (renderDigits c s.digits.toNat).length ≤ Buffer.pwd.capacity := by
  have := hi.digitsRange; simp [Buffer.capacity, Config.pwdMax]; omega

theorem code_toNat (v : BitVec 31) (n) : (BitVec.ofNat 32 (renderCode v.toNat n)).toNat = renderCode v.toNat n := by
  apply ofNat_toNat_lt; have := renderCode_lt v n; omega

theorem digest_fits (s : State) : s.counterHmac.length ≤ Buffer.digest.capacity := by
  rw [State.counterHmac, hmac_length]; exact s.alg.digestLength_le

theorem diglen_toNat (a : HashAlg) : (BitVec.ofNat 32 a.digestLength).toNat = a.digestLength := by cases a <;> rfl

theorem diglen_word (a : HashAlg) :
    BitVec.ofNat 32 a.digestLength = (match a with | .sha1 => 20 | .sha256 => 32 | .sha512 => 64 : Word) := by
  cases a <;> rfl

/-! ### HMAC and HOTP under a long enough key -/

theorem hmacResult_ok (s : State) (h : 16 ≤ s.binlen.toNat) :
    hmacResult s = .written (s.storeDigest s.counterHmac) := by
  rw [hmacResult, if_neg]; simp only [Config.secretMin]; omega

theorem hotpResult_ok (s : State) (h : 16 ≤ s.binlen.toNat) :
    hotpResult s = .written ((s.storeDigest s.counterHmac).storePassword (trunc s.counterHmac)) := by
  rw [hotpResult, if_neg]; simp only [Config.secretMin]; omega

theorem exec_hmac_ok (s : State) (h : 16 ≤ s.binlen.toNat) :
    exec .hmac s = .next (s.storeDigest s.counterHmac).finish := by
  simp only [exec, execHmac, hmacResult_ok s h, complete_written]

theorem exec_hotp_ok (s : State) (h : 16 ≤ s.binlen.toNat) :
    exec .hotp s =
      .next ((s.storeDigest s.counterHmac).storePassword (trunc s.counterHmac)).finish := by
  simp only [exec, execHotp, hotpResult_ok s h, complete_written]

theorem storeDigest_bytes (s : State) :
    (s.storeDigest s.counterHmac).bytes .digest s.alg.digestLength = s.counterHmac := by
  have h := State.writeBuffer_bytes s .digest s.counterHmac (digest_fits s)
  rw [State.counterHmac, hmac_length] at h
  exact h

/-- What storing a password leaves alone. -/
theorem storePassword_frame (v : BitVec 31) (s : State) :
    { s.storePassword v with truncval := s.truncval, code := s.code, pwdlen := s.pwdlen, mem := s.mem } = s := rfl

end Sys2Proof.Machine
end

