-- ==== Sys2Proof/Laws/Erase.lean ====
section
/-! SUPPORT. What scrubbing and erasing can do, said once. -/

namespace Sys2Proof.Machine

/-! ### Draws -/

theorem scrub_ne {old r : Byte} {draws rest : List Byte} (h : scrub old draws = some (r, rest)) : r ≠ old := by
  induction draws with
  | nil => cases h
  | cons d ds ih =>
    unfold scrub at h
    split at h
    · exact ih h
    · rename_i hd
      cases h
      exact hd

theorem scrubAll_cons (o : Byte) (os ds : List Byte) (r : List Byte × List Byte) : scrubAll (o :: os) ds = some r ↔
    ∃ n rest ns, scrub o ds = some (n, rest) ∧ scrubAll os rest = some (ns, r.2) ∧ r.1 = n :: ns := by
  obtain ⟨news, left⟩ := r
  rw [scrubAll]
  split
  · rename_i h; simp [h]
  · rename_i n rest h
    split
    · rename_i h2; simp only [h]; constructor
      · intro h; cases h
      · rintro ⟨n', rest', ns, h3, h4, _⟩; cases h3; rw [h2] at h4; cases h4
    · rename_i ns l h2
      simp only [h]
      constructor
      · intro h; cases h; exact ⟨n, rest, ns, rfl, h2, rfl⟩
      · rintro ⟨n', rest', ns', h3, h4, h5⟩; cases h3; rw [h2] at h4; cases h4; rw [h5]

theorem scrubAll_append (xs ys ds : List Byte) : scrubAll (xs ++ ys) ds =
    (scrubAll xs ds).bind fun p => (scrubAll ys p.2).map fun q => (p.1 ++ q.1, q.2) := by
  induction xs generalizing ds with
  | nil => simp [scrubAll]
  | cons x xs ih =>
    simp only [List.cons_append, scrubAll]
    cases scrub x ds with
    | none => rfl
    | some p =>
      simp only [ih]
      cases scrubAll xs p.2 with
      | none => rfl
      | some q =>
        simp only [Option.bind_some]
        cases scrubAll ys q.2 <;> rfl

theorem scrubAll_length {xs ds ns left} (h : scrubAll xs ds = some (ns, left)) : ns.length = xs.length := by
  induction xs generalizing ds ns with
  | nil => simp [scrubAll] at h; simp [← h.1]
  | cons x xs ih =>
    obtain ⟨n, rest, ns', _, h2, h3⟩ := (scrubAll_cons x xs ds _).mp h
    simp only at h3
    simp [h3, ih h2]

theorem scrubAll_ne {xs ds ns left : List Byte} (h : scrubAll xs ds = some (ns, left)) :
    List.Forall₂ (fun o n => n ≠ o) xs ns := by
  induction xs generalizing ds ns with
  | nil =>
    simp only [scrubAll] at h
    cases h
    exact .nil
  | cons x xs ih =>
    obtain ⟨n, rest, ns', h1, h2, h3⟩ := (scrubAll_cons x xs ds _).mp h
    simp only at h3
    subst h3
    exact .cons (scrub_ne h1) (ih h2)

/-- Draws that differ from the old bytes one by one are taken one by one. -/
theorem scrubAll_exact (os ds : List Byte) (h : List.Forall₂ (fun o d => d ≠ o) os (ds.take os.length)) :
    scrubAll os ds = some (ds.take os.length, ds.drop os.length) := by
  induction os generalizing ds with
  | nil => rfl
  | cons o os ih =>
    cases ds with
    | nil => cases h
    | cons d ds =>
      simp only [List.length_cons, List.take_succ_cons] at h
      cases h with
      | cons hd h =>
        simp only [scrubAll, scrub, if_neg hd, ih ds h, List.length_cons, List.take_succ_cons, List.drop_succ_cons]

/-! ### One buffer -/

/-- What ERASE does to one buffer. -/
structure EraseEffect (sel : BitVec 4) (b : Buffer) (s t : State) : Prop where
  same : SameHost s t
  bytes : sel.getLsbD b.selBit = true → ∀ i, i < b.capacity → t.byte b i ≠ s.byte b i
  frame : ∀ a, (sel.getLsbD b.selBit = true → ∀ i, i < b.capacity → a ≠ b.base + i) →
    t.readByte a = s.readByte a
  binlen : t.binlen = if b = .bin ∧ sel.getLsbD 0 = true then 0 else s.binlen
  txtlen : t.txtlen = if b = .txt ∧ sel.getLsbD 1 = true then 0 else s.txtlen
  diglen : t.diglen = if b = .digest ∧ sel.getLsbD 2 = true then 0 else s.diglen
  pwdlen : t.pwdlen = if b = .pwd ∧ sel.getLsbD 3 = true then 0 else s.pwdlen
  truncval : t.truncval = if b = .pwd ∧ sel.getLsbD 3 = true then 0 else s.truncval
  code : t.code = if b = .pwd ∧ sel.getLsbD 3 = true then 0 else s.code

/-- What erasing a buffer does, if SEL selects it. -/
theorem eraseIf_erased {sel b s t} (h : eraseIfSelected sel b s = some t) : EraseEffect sel b s t := by
  have hs := eraseIf_same h
  unfold eraseIfSelected at h
  split at h
  · rename_i hsel
    unfold eraseBuffer at h
    split at h
    · cases h
    · rename_i news left hn
      injection h with h
      have hl := scrubAll_length hn
      rw [State.bytes_length] at hl
      have hne := scrubAll_ne hn
      have hr : ∀ a, t.readByte a = (s.writeBuffer b news).readByte a := by
        intro a; rw [← h]; exact State.readByte_of_eq (by cases b <;> rfl) (by cases b <;> rfl) a
      refine ⟨hs, fun _ i hi => ?_, fun a ha => ?_, ?_, ?_, ?_, ?_, ?_, ?_⟩
      · rw [State.byte, hr]
        have h1 := State.writeBuffer_byte s b news i (by omega) hi
        rw [State.byte] at h1; rw [h1]
        have := (List.forall₂_iff_get.mp hne).2 i (by simpa using hi) (by omega)
        simpa using this
      · rw [hr]
        exact State.writeBuffer_readByte_outside s b news a fun i _ hi => ha hsel i hi
      all_goals
        subst h
        cases b <;> simp_all [State.release, Buffer.selBit]
  · rename_i hsel; cases h
    refine ⟨hs, fun h => absurd h hsel, fun _ _ => rfl, ?_, ?_, ?_, ?_, ?_, ?_⟩
    all_goals
      cases b <;> simp_all [Buffer.selBit]

/-! ### Several buffers -/

/-- The bytes ERASE replaces in some buffers, in order. -/
def erasedBytes (sel : BitVec 4) (bs : List Buffer) (s : State) : List Byte :=
  (bs.filter fun b => sel.getLsbD b.selBit).flatMap fun b => s.bytes b b.capacity

/-- ERASE as a fold over some buffers. -/
def eraseList (sel : BitVec 4) (bs : List Buffer) (s : State) : Option State :=
  bs.foldlM (fun s b => eraseIfSelected sel b s) s

theorem eraseSelected_eq (sel s) : eraseSelected sel s = eraseList sel Buffer.all s := by
  simp only [eraseSelected, eraseList, Buffer.all, List.foldlM_cons, List.foldlM_nil,
    Option.bind_eq_bind, Option.pure_def]
  simp only [Option.bind_assoc, Option.bind_fun_some]

/-- A buffer's erasure is enabled exactly when the draws suffice for its bytes. -/
theorem eraseIf_draws (sel b s) :
    (∃ t news left, eraseIfSelected sel b s = some t ∧
      scrubAll (erasedBytes sel [b] s) s.draws = some (news, left) ∧ t.draws = left) ∨
    (eraseIfSelected sel b s = none ∧ scrubAll (erasedBytes sel [b] s) s.draws = none) := by
  unfold eraseIfSelected erasedBytes
  by_cases h : sel.getLsbD b.selBit = true
  · simp only [h, List.filter_cons_of_pos, List.filter_nil, List.flatMap_cons, List.flatMap_nil,
      List.append_nil, if_true]
    unfold eraseBuffer
    cases hs : scrubAll (s.bytes b b.capacity) s.draws with
    | none => exact .inr ⟨rfl, rfl⟩
    | some p => exact .inl ⟨_, p.1, p.2, rfl, rfl, by cases b <;> rfl⟩
  · left
    exact ⟨s, [], s.draws, by simp [h], by simp [h, scrubAll], rfl⟩

/-- Erasing one buffer leaves what ERASE replaces in the others. -/
theorem erasedBytes_congr {sel b s t} (h : EraseEffect sel b s t) (bs : List Buffer) (hb : b ∉ bs) :
    erasedBytes sel bs t = erasedBytes sel bs s := by
  unfold erasedBytes
  refine List.flatMap_congr fun c hc => ?_
  have hc' : c ∈ bs := (List.mem_filter.mp hc).1
  refine List.ext_getElem (by simp) fun i h1 h2 => ?_
  simp at h1
  rw [State.getElem_bytes, State.getElem_bytes, State.byte, State.byte]
  refine h.frame _ fun _ j hj he => ?_
  obtain ⟨rfl, _⟩ := Buffer.place_inj h1 hj he
  exact hb hc'

/-- ERASE is enabled exactly when the draws suffice for all the bytes it replaces, one after another. -/
theorem eraseList_isSome (sel : BitVec 4) (bs : List Buffer) (hn : bs.Nodup) (s : State) :
    (eraseList sel bs s).isSome = (scrubAll (erasedBytes sel bs s) s.draws).isSome := by
  induction bs generalizing s with
  | nil => rfl
  | cons b bs ih =>
    have hsplit : erasedBytes sel (b :: bs) s = erasedBytes sel [b] s ++ erasedBytes sel bs s := by
      unfold erasedBytes; rw [← List.flatMap_append, ← List.filter_append]; rfl
    rw [hsplit, scrubAll_append]
    rw [List.nodup_cons] at hn
    unfold eraseList
    rw [List.foldlM_cons]
    rcases eraseIf_draws sel b s with ⟨t, news, left, h1, h2, h3⟩ | ⟨h1, h2⟩
    · rw [h1, h2]
      have := ih hn.2 t
      rw [erasedBytes_congr (eraseIf_erased h1) bs hn.1, h3] at this
      simpa [eraseList] using this
    · rw [h1, h2]; rfl

/-- One erased buffer holds the bytes scrubbed for it. -/
theorem eraseIf_news {sel b} {s t : State} {news left : List Byte} (h : eraseIfSelected sel b s = some t)
    (hd : scrubAll (erasedBytes sel [b] s) s.draws = some (news, left)) :
    erasedBytes sel [b] t = news ∧ t.draws = left := by
  unfold eraseIfSelected at h
  unfold erasedBytes at hd ⊢
  by_cases hb : sel.getLsbD b.selBit = true
  · simp only [hb, List.filter_cons_of_pos, List.filter_nil, List.flatMap_cons, List.flatMap_nil,
      List.append_nil, if_true] at h hd ⊢
    have hl := scrubAll_length hd
    rw [State.bytes_length] at hl
    rw [eraseBuffer, hd] at h
    injection h with h
    constructor
    · rw [← h, State.bytes_of_eq (s := s.writeBuffer b news) (by cases b <;> rfl) (by cases b <;> rfl), ← hl]
      exact State.writeBuffer_bytes s b news hl.le
    · rw [← h]
      cases b <;> rfl
  · simp only [hb, List.filter_cons_of_neg, List.filter_nil, List.flatMap_nil, scrubAll, Bool.false_eq_true,
      not_false_eq_true, if_false, Option.some.injEq, Prod.mk.injEq] at h hd ⊢
    exact ⟨hd.1, h ▸ hd.2⟩

/-- Erasing some buffers leaves every other buffer's bytes. -/
theorem eraseList_other {sel bs c} {s t : State} (h : eraseList sel bs s = some t) (hc : c ∉ bs) :
    erasedBytes sel [c] t = erasedBytes sel [c] s := by
  induction bs generalizing s with
  | nil => cases h; rfl
  | cons b bs ih =>
    unfold eraseList at h
    rw [List.foldlM_cons] at h
    obtain ⟨u, h1, h2⟩ := Option.bind_eq_some_iff.mp h
    rw [List.mem_cons, not_or] at hc
    rw [ih h2 hc.2]
    exact erasedBytes_congr (eraseIf_erased h1) [c] (by simpa using Ne.symm hc.1)

/-- The erased buffers hold the scrubbed bytes, in order, and the draws taken are gone. -/
theorem eraseList_news {sel : BitVec 4} {bs : List Buffer} (hn : bs.Nodup) {s : State} {news left : List Byte}
    (hd : scrubAll (erasedBytes sel bs s) s.draws = some (news, left)) :
    ∃ t, eraseList sel bs s = some t ∧ erasedBytes sel bs t = news ∧ t.draws = left := by
  induction bs generalizing s news with
  | nil =>
    simp only [erasedBytes, List.filter_nil, List.flatMap_nil, scrubAll, Option.some.injEq, Prod.mk.injEq] at hd
    exact ⟨s, rfl, hd.1, hd.2⟩
  | cons b bs ih =>
    have hsplit : ∀ u, erasedBytes sel (b :: bs) u = erasedBytes sel [b] u ++ erasedBytes sel bs u := by
      intro u
      unfold erasedBytes
      rw [← List.flatMap_append, ← List.filter_append]
      rfl
    rw [hsplit, scrubAll_append] at hd
    obtain ⟨⟨n1, l1⟩, h1, h2⟩ := Option.bind_eq_some_iff.mp hd
    obtain ⟨⟨n2, l2⟩, h3, h4⟩ := Option.map_eq_some_iff.mp h2
    cases h4
    rw [List.nodup_cons] at hn
    rcases eraseIf_draws sel b s with ⟨u, _, _, hu, _, _⟩ | ⟨_, hu⟩
    · obtain ⟨e1, e2⟩ := eraseIf_news hu h1
      rw [← erasedBytes_congr (eraseIf_erased hu) bs hn.1, ← e2] at h3
      obtain ⟨t, ht, e3, e4⟩ := ih hn.2 h3
      refine ⟨t, ?_, ?_, e4⟩
      · unfold eraseList
        rw [List.foldlM_cons, hu]
        exact ht
      · rw [hsplit, eraseList_other ht hn.1, e1, e3]
    · rw [hu] at h1
      cases h1

end Sys2Proof.Machine
end

