-- ==== Sys2Proof/Laws/Inv.lean ====
section
/-! SUPPORT. The invariants through each shared operation. -/

namespace Sys2Proof.Machine

theorem State.Inv.pwd_le {s : State} (h : s.Inv) : s.pwdlen.toNat ≤ 10 := by
  rcases h.pwdlenRange with h | h
  · rw [h]; decide
  · exact h.2

/-- The password is ASCII digits that read as CODE (`10_state.md` R47). -/
theorem State.Inv.password_reads_as_code {s : State} (h : s.Inv) (hp : s.pwdlen ≠ 0) :
    (∀ c ∈ s.bytes .pwd s.pwdlen.toNat, 0x30 ≤ c.toNat ∧ c.toNat ≤ 0x39) ∧
    (s.bytes .pwd s.pwdlen.toNat).foldl (fun x c => x * 10 + (c.toNat - 0x30)) 0 = s.code.toNat := by
  rw [h.passwordSpellsCode hp]
  refine ⟨renderDigits_range _ _, ?_⟩
  rw [renderDigits_value, Nat.mod_eq_of_lt (h.codeFits hp)]
  omega

theorem inv_finish {s : State} (h : s.Inv) : s.finish.Inv :=
  { h with inFlightLegal := by intro h; cases h }

theorem inv_record {s : State} (h : s.Inv) (k info)
    (hk : k.code ∈ ([0x01, 0x02, 0x03, 0x05, 0x10, 0x11] : List Byte)) : (s.record k info).Inv :=
  { h with
    errcodeIffErr := by
      refine ⟨fun _ => rfl, fun _ => ?_⟩
      show k.code ≠ 0
      intro h0; rw [h0] at hk; revert hk; decide
    errcodeRaised := by
      show k.code ∈ _
      simp only [List.mem_cons] at hk ⊢; exact .inr hk }

theorem writeBuffer_mapped {s : State} (h : ∀ c ∈ s.mem, mapped c.1 = true) (b bs) :
    ∀ c ∈ (s.writeBuffer b bs).mem, mapped c.1 = true := by
  intro c hc
  rcases Memory.mem_writeBytes hc with ⟨i, hi, he⟩ | hc
  · simp at hi
    rw [he]
    refine List.any_eq_true.mpr ⟨b, Buffer.mem_all b, ?_⟩
    rw [holds_iff]; omega
  · exact h c hc

theorem inv_writeBuffer {s : State} (h : s.Inv) (b bs) (hb : b ≠ .pwd) : (s.writeBuffer b bs).Inv :=
  { h with
    passwordSpellsCode := by
      intro hp
      have := h.passwordSpellsCode hp
      refine Eq.trans ?_ this
      exact State.writeBuffer_bytes_other s bs _ hb.symm h.pwd_le
    memoryCanonical := Memory.wf_writeBytes _ _ _ h.memoryCanonical
    memoryMapped := writeBuffer_mapped h.memoryMapped b bs }

theorem inv_storeDigest {s : State} (h : s.Inv) (d) : (s.storeDigest d).Inv :=
  { inv_writeBuffer h .digest d (by decide) with
    diglenRange := by
      have : ∀ a : HashAlg, let d : Word := BitVec.ofNat 32 a.digestLength
          d = 0 ∨ d = 20 ∨ d = 32 ∨ d = 64 := by
        intro a; cases a <;> decide
      exact this s.alg }

theorem inv_storePassword {s : State} (h : s.Inv) (v) : (s.storePassword v).Inv :=
  { h with
    pwdlenRange := .inr h.digitsRange
    codeBound := by
      show (BitVec.ofNat 32 (renderCode v.toNat s.digits.toNat)).toNat ≤ v.toNat
      rw [code_toNat]; exact Nat.mod_le _ _
    codeFits := by
      intro _
      show (BitVec.ofNat 32 (renderCode v.toNat s.digits.toNat)).toNat < 10 ^ s.digits.toNat
      rw [code_toNat]; exact Nat.mod_lt _ (by positivity)
    passwordSpellsCode := by
      intro _
      have h2 : (s.storePassword v).code.toNat = renderCode v.toNat s.digits.toNat := code_toNat _ _
      rw [h2]
      have h1 := State.writeBuffer_bytes s .pwd _ (digits_fits s h (renderCode v.toNat s.digits.toNat))
      rw [renderDigits_length] at h1
      exact h1
    memoryCanonical := Memory.wf_writeBytes _ _ _ h.memoryCanonical
    memoryMapped := writeBuffer_mapped h.memoryMapped .pwd _ }

theorem inv_writeByte {s : State} (h : s.Inv) (b i v) (hb : b ≠ .pwd) (hi : i < b.capacity) :
    (s.writeByte b i v).Inv :=
  { h with
    passwordSpellsCode := by
      intro hp
      have := h.passwordSpellsCode hp
      refine Eq.trans ?_ this
      refine List.ext_getElem (by simp) fun j h1 h2 => ?_
      simp only [State.bytes_length] at h1
      rw [State.getElem_bytes, State.getElem_bytes, State.byte, State.writeByte_readByte, if_neg]
      · rfl
      · intro he
        have hp := h.pwd_le
        exact hb (Buffer.place_inj (b := .pwd) (c := b) (lt_of_lt_of_le h1 hp) hi he).1.symm
    memoryCanonical := Memory.wf_write _ _ _ h.memoryCanonical
    memoryMapped := by
      intro c hc
      rcases Memory.mem_write hc with rfl | hc
      · refine List.any_eq_true.mpr ⟨b, Buffer.mem_all b, ?_⟩
        rw [holds_iff]; simp only; omega
      · exact h.memoryMapped c hc }

end Sys2Proof.Machine
end

