-- ==== Sys2Proof/Laws/PerInstr.lean ====
section
/-! SUPPORT. Per command: its word is legal and carries the opcode of its row (`30_encoding.md` R91, R93). -/

namespace Sys2Proof.Laws.EncodingIsLegal

/-- The opcode of a command's row (`30_encoding.md` R93). -/
def opcode : Instr → BitVec 8
  | .b32enc => 0x01
  | .b32dec => 0x02
  | .erase _ => 0x03
  | .trunc => 0x04
  | .hmac => 0x05
  | .hotp => 0x06

/-- The word of `i` is legal, its OP is the row's opcode, and bits 31:12 are 0. -/
def Statement (i : Instr) : Prop :=
  legal (encode i) = true ∧ opField (encode i) = opcode i ∧ zeroField (encode i) = 0

theorem b32enc : Statement .b32enc := by unfold Statement; decide
theorem b32dec : Statement .b32dec := by unfold Statement; decide
theorem erase (sel : BitVec 4) : Statement (.erase sel) := by
  unfold Statement
  revert sel
  decide
theorem trunc : Statement .trunc := by unfold Statement; decide
theorem hmac : Statement .hmac := by unfold Statement; decide
theorem hotp : Statement .hotp := by unfold Statement; decide

end Sys2Proof.Laws.EncodingIsLegal
end

