-- ==== Sys2Proof/Laws/Step.lean ====
section
/-! SUPPORT. What a step can do, said once. -/

namespace Sys2Proof.Machine

/-- The four agents' moves, as a step makes them. -/
theorem step_cases {s t : State} (h : step s = .next t) :
    (∃ rest x, s.inputs = .host x :: rest ∧ t = hostStep x { s with inputs := rest }) ∨
    (∃ rest b, s.inputs = .deliver b :: rest ∧ t = deliverByte b { s with inputs := rest }) ∨
    (∃ rest, s.inputs = .reset :: rest ∧ t = resetEvent { s with inputs := rest }) ∨
    ((s.inputs = [] ∨ ∃ rest, s.inputs = .sequencer :: rest) ∧ ∃ ins,
      (s.busy = false ∧ t = { s with inputs := ins } ∨
       s.busy = true ∧ ∃ i, decode s.cmdreg = .ok i ∧ exec i { s with inputs := ins } = .next t)) := by
  have seq : ∀ u : State, sequencerTurn u = .next t →
      (u.busy = false ∧ t = u ∨ u.busy = true ∧ ∃ i, decode u.cmdreg = .ok i ∧ exec i u = .next t) := by
    intro u hu
    unfold sequencerTurn at hu
    split at hu
    · rename_i hb
      split at hu
      · rename_i i hi; exact .inr ⟨hb, i, hi, hu⟩
      · cases hu
    · rename_i hb
      cases hu; exact .inl ⟨by simpa using hb, rfl⟩
  unfold step advance at h
  split at h
  · rename_i hi
    refine .inr (.inr (.inr ⟨.inl hi, s.inputs, seq s h⟩))
  · rename_i e rest hi
    cases e with
    | host x => simp only [perform] at h; injection h with h; exact .inl ⟨rest, x, hi, h.symm⟩
    | deliver b => simp only [perform] at h; injection h with h; exact .inr (.inl ⟨rest, b, hi, h.symm⟩)
    | reset => simp only [perform] at h; injection h with h; exact .inr (.inr (.inl ⟨rest, hi, h.symm⟩))
    | sequencer => exact .inr (.inr (.inr ⟨.inr ⟨rest, hi⟩, rest, seq _ h⟩))

/-- A run, one step on. -/
theorem run_next (M : Host.Core) (n : Nat) (s t : M.State) (h : M.step s = .next t) : M.run (n + 1) s = M.run n t := by
  show (match M.step s with | .next s' => M.run n s' | .fault r => .fault r | .refused r => .refused r) = _
  rw [h]

end Sys2Proof.Machine
end

