-- ==== Sys2Proof/Tests/Slice0.lean ====
section
/-! SUPPORT. Tests against the vectors of `95_test_vectors.md` and `96_more_vectors.md`, and for each statement with
hypotheses a state and operands that meet them (`witness_...`). Expected results are the spec's, never the model's. -/

namespace Sys2Proof.Tests

/- One proof after another: proofs that wait for the kernel side by side each hold a thread and its stack. -/
set_option Elab.async false

open Sys2Proof.Machine

/-! ### Helpers -/

/-- The next state of an outcome, if it is one. -/
def nextState : Host.Outcome State Fault Refusal → Option State
  | .next t => some t
  | .fault _ => none
  | .refused _ => none

/-- An outcome whose next state passes a check is a next state. -/
theorem exists_next {o : Host.Outcome State Fault Refusal} (P : State → Prop) [DecidablePred P]
    (h : (nextState o).any (fun t => decide (P t)) = true) : ∃ t, o = .next t ∧ P t := by
  cases o with
  | next t => exact ⟨t, rfl, of_decide_eq_true h⟩
  | fault _ => cases h
  | refused _ => cases h

/-- ASCII bytes. -/
def ascii (s : String) : List Byte := s.toList.map fun c => BitVec.ofNat 8 c.toNat

/-- The bytes of a hexadecimal number of `n` bytes. -/
def hex (n v : Nat) : List Byte := beBytes n v

/-- The key `K20` of the spec's vectors. -/
def k20 : List Byte := ascii "12345678901234567890"

/-- The key `R(n)` of the spec's vectors. -/
def keyR (n : Nat) : List Byte := (List.range n).map (BitVec.ofNat 8)

/-- After reset, with a key in BIN. -/
def withKey (k : List Byte) : State :=
  { State.reset.writeBuffer .bin k with binlen := BitVec.ofNat 32 k.length }

/-- After reset, with a text in TXT. -/
def withText (t : List Byte) : State :=
  { State.reset.writeBuffer .txt t with txtlen := BitVec.ofNat 32 t.length }

/-- After reset, with a digest in DIGEST. -/
def withDigest (d : List Byte) : State :=
  { State.reset.writeBuffer .digest d with diglen := BitVec.ofNat 32 d.length }

/-- A command in flight. -/
def issued (i : Instr) (s : State) : State := s.accept (encode i)

/-- A state with inputs. -/
def withInputs (es : List Event) (s : State) : State := { s with inputs := es }

/-- A state with delivered bytes. -/
def withDraws (ds : List Byte) (s : State) : State := { s with draws := ds }

/-! ### Well-formed commands: no term is ill-formed, since SEL is four bits and all 16 masks are legal -/

theorem test_wellFormed_all : (∀ sel : BitVec 4, WellFormed (.erase sel) = true) ∧
    ∀ i ∈ [Instr.b32enc, .b32dec, .trunc, .hmac, .hotp], WellFormed i = true := by decide

/-! ### Decoding: words written out from the encodings of `30_encoding.md` R91 and R93 -/

theorem test_decode_b32enc : decodeTableWord 32 0b00000000000000000000_0000_00000001 = some .b32enc := by decide
theorem test_decode_b32dec : decodeTableWord 32 0b00000000000000000000_0000_00000010 = some .b32dec := by decide
theorem test_decode_erase : decodeTableWord 32 0b00000000000000000000_0101_00000011 = some (.erase 0b0101) := by decide
theorem test_decode_trunc : decodeTableWord 32 0b00000000000000000000_0000_00000100 = some .trunc := by decide
theorem test_decode_hmac : decodeTableWord 32 0b00000000000000000000_0000_00000101 = some .hmac := by decide
theorem test_decode_hotp : decodeTableWord 32 0b00000000000000000000_0000_00000110 = some .hotp := by decide

/-- V-CMD-3 to V-CMD-6: words that are refused, each by its reason. -/
theorem test_decode_illegal :
    decode 0x00000000 = .error (.unknownOpcode 0x00) ∧ decode 0x00000007 = .error (.unknownOpcode 0x07) ∧
    decode 0x000000FF = .error (.unknownOpcode 0xFF) ∧ decode 0x00000105 = .error .selWithoutErase ∧
    decode 0x00001003 = .error .reservedBitsSet ∧ decode 0x80000001 = .error .reservedBitsSet ∧
    decode 0x00010006 = .error .reservedBitsSet := by
  refine ⟨?_, ?_, ?_, ?_, ?_, ?_, ?_⟩ <;> rfl

/-- The opcode map has no two rows with a word in common. -/
theorem test_opRows_disjoint :
    opRows.Pairwise fun r q => r.bits &&& (r.mask &&& q.mask) ≠ q.bits &&& (r.mask &&& q.mask) := by decide

/-! ### A step runs a command word placed where the next step takes it -/

/-- TRUNC as the first command after reset: V-TRU-19. -/
theorem test_withFetchWord_trunc :
    (nextState (step (State.reset.withFetchWord 32 4))).map (fun t => (t.statusWord, t.errcode, t.errinfo, t.cmdreg)) =
      some (0x00000006, 0x11, 0, 4) := by decide

/-- ERASE NONE as the first command after reset: V-ERA-3. -/
theorem test_withFetchWord_eraseNone :
    (nextState (step (State.reset.withFetchWord 32 3))).map (fun t => (t.statusWord, t.cmdreg)) =
      some (0x00000002, 3) := by decide

/-! ### Base32 -/

/-- V-B32-7, V-B32-8 -/
theorem test_b32enc :
    (nextState (exec .b32enc (withKey (ascii "foobar")))).map (fun t => (t.bytes .txt 16, t.txtlen)) =
      some (ascii "MZXW6YTBOI======", 16) ∧
    (nextState (exec .b32enc (withKey k20))).map (fun t => t.bytes .txt 32) =
      some (ascii "GEZDGNBVGY3TQOJQGEZDGNBVGY3TQOJQ") := by decide +kernel

/-- V-B32-23, V-B32-43 -/
theorem test_b32dec :
    (nextState (exec .b32dec (withText (ascii "mZxW6yTbOi==")))).map (fun t => (t.bytes .bin 6, t.binlen)) =
      some ([0x66, 0x6f, 0x6f, 0x62, 0x61, 0x72], 6) ∧
    (nextState (exec .b32dec (withText (ascii "M!X")))).map (fun t => (t.statusWord, t.errcode, t.errinfo)) =
      some (0x00000006, 0x01, 0x00010001) := by decide +kernel

/-- V-B32-24 to V-B32-42, the texts with a corner: trailing `=`, leftover bits, bad lengths, bytes outside the alphabet. -/
theorem test_dec32 :
    dec32 (ascii "MY=========") = .ok [0x66] ∧ dec32 (ascii "MZ") = .ok [0x66] ∧ dec32 (ascii "====") = .ok [] ∧
    dec32 (ascii "MZXW6YTBO") = .error 0x00020009 ∧ dec32 (ascii "MY=A") = .error 0x00010002 ∧
    dec32 (ascii "=A") = .error 0x00010000 ∧ dec32 (ascii "MZXW6YTB0I") = .error 0x00010008 := by
  refine ⟨?_, ?_, ?_, ?_, ?_, ?_, ?_⟩ <;> rfl

/-! ### ERASE -/

/-- PWD of V-ERA-2, with its registers. -/
def pwdState : State :=
  { State.reset.writeBuffer .pwd [0x38, 0x37, 0x32, 0x39, 0x32, 0x31, 0xaa, 0xaa, 0xaa, 0xaa] with
    pwdlen := 6, truncval := 0x50EF7F19, code := 872921 }

/-- The draws of V-ERA-2. -/
def pwdDraws : List Byte :=
  [0x38, 0x41, 0x37, 0x37, 0x00, 0x32, 0x99, 0x39, 0x10, 0x32, 0x11, 0x31, 0x12, 0xaa, 0xab, 0xaa, 0xaa, 0x01, 0xac,
   0xaa, 0xad]

/-- V-ERA-2: 21 draws, 11 of them discarded. -/
theorem test_erase_pwd :
    (nextState (exec (.erase 0b1000) (withDraws (pwdDraws ++ [0x77]) pwdState))).map
      (fun t => (t.bytes .pwd 10, t.pwdlen, t.truncval, t.code, t.draws)) =
      some ([0x41, 0x00, 0x99, 0x10, 0x11, 0x12, 0xab, 0x01, 0xac, 0xad], 0, 0, 0, [0x77]) := by decide +kernel

/-- V-ERA-7: without the last draw of V-ERA-2 the command stays in flight. -/
theorem test_erase_waits :
    (nextState (exec (.erase 0b1000) (issued (.erase 0b1000) (withDraws pwdDraws.dropLast pwdState)))).map (·.statusWord) =
      some 0x00000001 := by decide +kernel

/-! ### TRUNC -/

/-- V-TRU-1, V-TRU-14 -/
theorem test_trunc :
    (nextState (exec .trunc (withDigest (hex 20 0x1f8698690e02ca16618550ef7f19da8e945b555a)))).map
      (fun t => (t.truncval, t.code, t.bytes .pwd 6, t.pwdlen)) = some (0x50EF7F19, 872921, ascii "872921", 6) ∧
    (nextState (exec .trunc { withDigest (keyR 32) with digits := 8 })).map
      (fun t => (t.truncval, t.code, t.bytes .pwd 8)) = some (0x0F101112, 52711186, ascii "52711186") := by
  decide +kernel

/-- V-TRU-8, V-TRU-17: the largest password, and a code of 0 with its zeros kept. -/
theorem test_trunc_corners :
    (nextState (exec .trunc { withDigest (List.replicate 20 0xff) with digits := 10 })).map
      (fun t => (t.truncval, t.bytes .pwd 10)) = some (0x7FFFFFFF, ascii "2147483647") ∧
    (nextState (exec .trunc (withDigest (hex 20 0x000f424000000000000000000000000000000020)))).map
      (fun t => (t.truncval, t.code, t.bytes .pwd 6)) = some (0x000F4240, 0, ascii "000000") := by decide +kernel

/-! ### Hash functions -/

/-- V-SHA-2 and V-SHA-4: one block and two. -/
theorem test_sha1 :
    sha1 (ascii "abc") = hex 20 0xa9993e364706816aba3e25717850c26c9cd0d89d ∧
    sha1 (List.replicate 56 0x61) = hex 20 0xc2db330f6083854c99d4b5bfb6e8f29f201be699 := by decide +kernel

/-- V-SHA-7 -/
theorem test_sha256 :
    sha256 (ascii "abc") = hex 32 0xba7816bf8f01cfea414140de5dae2223b00361a396177a9cb410ff61f20015ad := by
  decide +kernel

/-- V-SHA-12 -/
theorem test_sha512 :
    sha512 (ascii "abc") = hex 64 0xddaf35a193617abacc417349ae20413112e6fa4e89a97ea20a9eeee64b55d39a2192992a274fc1a836ba3c23a3feebbd454d4423643ce80e2a9ac94fa54ca49f := by
  decide +kernel

/-! ### HMAC and HOTP -/

/-- V-HMAC-2 -/
theorem test_hmac_sha256 :
    (nextState (exec .hmac { withKey k20 with alg := .sha256, ctrLo := 1 })).map
      (fun t => (t.bytes .digest 32, t.diglen)) =
      some (hex 32 0xec9d4f687b4efe6acc52100672660b84c0e7210ba0382141f8ecb90796cab912, 32) := by decide +kernel

/-- V-KEY-6: a key longer than the block is hashed first. -/
theorem test_hmac_long_key :
    (nextState (exec .hmac { withKey (keyR 65) with ctrLo := 1 })).map (fun t => t.bytes .digest 20) =
      some (hex 20 0x7f7bb6b53d6f4de3e5d25fddfe356529487057dc) := by decide +kernel

/-- V-SRC-1: the RFC 6238 vector at time 59. -/
theorem test_hotp_sha1 :
    (nextState (exec .hotp { withKey k20 with digits := 8, ctrLo := 1 })).map
      (fun t => (t.bytes .digest 20, t.truncval, t.bytes .pwd 8)) =
      some (hex 20 0x75a48a19d4cbe100644e8ac1397eea747a2d33ab, 0x41397EEA, ascii "94287082") := by decide +kernel

/-- V-TOTP-1 with SHA-512. -/
theorem test_hotp_sha512 :
    (nextState (exec .hotp { withKey k20 with alg := .sha512, digits := 8, ctrLo := 1 })).map
      (fun t => t.bytes .pwd 8) = some (ascii "69342147") := by decide +kernel

/-- V-KEY-13: CTR_HI is the upper half. -/
theorem test_counterBytes :
    { State.reset with ctrHi := 1 }.counterBytes = [0, 0, 0, 1, 0, 0, 0, 0] := by decide

/-! ### The bus -/

/-- V-REG-13, V-REG-15: the second error overwrites the first; clearing ERR zeroes both registers. -/
theorem test_errors_overwrite_and_clear :
    let s := (memWrite 0x01C 4 99 (memWrite 0x018 4 7 State.reset).2).2
    (s.err, s.errcode, s.errinfo) = (true, 0x05, 99) ∧
    (memWrite 0x008 4 4 s).2 = State.reset := by decide

/-- V-LCK-3, V-LCK-5, V-LCK-9: lost writes set HZD, access faults do not. -/
theorem test_lockout :
    memWrite 0x020 4 5 (issued .hotp State.reset) = (.ok, (issued .hotp State.reset).hazard) ∧
    memWrite 0x00C 4 0 (issued .hotp State.reset) = (.ok, (issued .hotp State.reset).hazard) ∧
    memWrite 0x680 1 0x30 (issued .hotp State.reset) = (.accessFault, issued .hotp State.reset) ∧
    (issued .hotp State.reset).hazard.statusWord = 0x00000009 := by decide

/-- V-ACC-1 to V-ACC-8 at the edges of the map. -/
theorem test_access_edges :
    Target.allowed .read 0x000 1 = none ∧ Target.allowed .read 0x002 4 = none ∧ Target.allowed .read 0x040 4 = none ∧
    Target.allowed .read 0x100 4 = none ∧ Target.allowed .read 0x203 1 = some (.byte .bin 259) ∧
    Target.allowed .read 0x204 1 = none ∧ Target.allowed .write 0x59F 1 = some (.byte .txt 415) ∧
    Target.allowed .write 0x5A0 1 = none ∧ Target.allowed .write 0x63F 1 = some (.byte .digest 63) ∧
    Target.allowed .read 0x689 1 = some (.byte .pwd 9) ∧ Target.allowed .read 0x68A 1 = none ∧
    Target.allowed .write 0x680 1 = none ∧ Target.allowed .write 0x000 4 = none ∧
    Target.allowed .write 0x008 4 = some (.reg .status) ∧ Target.allowed .write 0x00C 2 = none := by decide

/-- V-IRQ-3, V-IRQ-7: the interrupt follows DONE of a command that succeeds and of one that fails. -/
theorem test_irq :
    (nextState (exec (.erase 0) (issued (.erase 0) { State.reset with ie := true }))).map (·.irq) = some true ∧
    (nextState (exec .hmac (issued .hmac { State.reset with ie := true }))).map (fun t => (t.irq, t.statusWord)) =
      some (true, 0x00000006) := by decide

/-- `60_exceptions.md` R281: a script has ended when its last transaction has returned and BUSY = 0, whatever the other
agents may still do, and not before. -/
theorem test_ended :
    (withInputs [.reset, .deliver 1, .sequencer] State.reset).ended = true ∧ State.reset.ended = true ∧
    (withInputs [.deliver 1, .host (.read 0x008 4)] State.reset).ended = false ∧
    (issued .hotp State.reset).ended = false := by decide

/-! ### States that meet the statements' hypotheses -/

/-- A state in which every invariant has something to say: a key, a text, a digest and a password. -/
def demo : State :=
  { ((pwdState.writeBuffer .bin (keyR 16)).writeBuffer .txt (ascii "MY")).writeBuffer .digest (List.replicate 20 0xff) with
    binlen := 16, txtlen := 2, diglen := 20 }

theorem demo_inv : demo.Inv where
  digitsRange := by decide +kernel
  binlenRange := by decide +kernel
  txtlenRange := by decide +kernel
  diglenRange := by decide +kernel
  pwdlenRange := by decide +kernel
  codeBound := by decide +kernel
  errcodeIffErr := by decide +kernel
  errcodeRaised := by decide +kernel
  inFlightLegal := by decide +kernel
  codeFits := by decide +kernel
  passwordSpellsCode := by decide +kernel
  memoryCanonical := by decide +kernel
  memoryMapped := by decide +kernel

/-- `10_state.md` R47: a CODE of seven digits is not spelled by its last six. -/
theorem test_inv_codeFits : ¬ { demo with code := 1872921 }.Inv := fun h =>
  absurd (h.codeFits (by decide +kernel)) (by decide +kernel)

/-- The same state in flight. -/
theorem demo_issued_inv : (issued .trunc demo).Inv where
  digitsRange := by decide +kernel
  binlenRange := by decide +kernel
  txtlenRange := by decide +kernel
  diglenRange := by decide +kernel
  pwdlenRange := by decide +kernel
  codeBound := by decide +kernel
  errcodeIffErr := by decide +kernel
  errcodeRaised := by decide +kernel
  inFlightLegal := by decide +kernel
  codeFits := by decide +kernel
  passwordSpellsCode := by decide +kernel
  memoryCanonical := by decide +kernel
  memoryMapped := by decide +kernel

/-- A state whose text does not decode. -/
theorem bad_text_inv : (withText (ascii "M!X")).Inv where
  digitsRange := by decide +kernel
  binlenRange := by decide +kernel
  txtlenRange := by decide +kernel
  diglenRange := by decide +kernel
  pwdlenRange := by decide +kernel
  codeBound := by decide +kernel
  errcodeIffErr := by decide +kernel
  errcodeRaised := by decide +kernel
  inFlightLegal := by decide +kernel
  codeFits := by decide +kernel
  passwordSpellsCode := by decide +kernel
  memoryCanonical := by decide +kernel
  memoryMapped := by decide +kernel

theorem witness_EncodedCommandDecodes : WellFormed (.erase 15) = true := rfl

theorem witness_DecodedWordIsItsEncoding : decode 0xF03 = .ok (.erase 15) := rfl

theorem witness_IllegalWordStartsNothing :
    legal 0x00000000 = false ∧ legal 0x00000007 = false ∧ legal 0x000000FF = false ∧ legal 0x00000101 = false ∧
    legal 0x00000F04 = false ∧ legal 0x00001003 = false ∧ legal 0x80000003 = false ∧ State.reset.busy = false := by
  decide

theorem witness_StepRunsTheCommandInFlight :
    (issued .trunc demo).busy = true ∧ decode (issued .trunc demo).cmdreg = .ok .trunc ∧
    (issued .trunc demo).inputs = [] ∧
    (withInputs [.sequencer, .reset] (issued .trunc demo)).inputs = .sequencer :: [.reset] ∧
    WellFormed .trunc = true :=
  ⟨by decide +kernel, rfl, by decide +kernel, by decide +kernel, rfl⟩

theorem witness_SequencerIdleWithoutCommand :
    demo.busy = false ∧ demo.inputs = [] ∧ (withInputs [.sequencer] demo).inputs = .sequencer :: [] := by decide +kernel

theorem witness_StepPerformsTheNextInput :
    (withInputs [.host (.read 0x000 4)] demo).inputs = .host (.read 0x000 4) :: [] ∧
    (withInputs [.deliver 7] demo).inputs = .deliver 7 :: [] := by decide +kernel

theorem witness_ResetSetsEveryRegister :
    (withInputs [.reset] (issued .trunc demo)).inputs = .reset :: [] := by decide +kernel

/-- A state of the invariants whose step runs a command. -/
theorem witness_StepKeepsInvariants :
    (issued .trunc demo).Inv ∧ ∃ t, step (issued .trunc demo) = .next t ∧ t.pwdlen = 6 := 
  ⟨demo_issued_inv, exists_next (·.pwdlen = 6) (by decide +kernel)⟩

theorem witness_NoRunStops : (issued .trunc demo).Inv := demo_issued_inv

theorem witness_BusyChangesOnlyByIssueAndCompletion :
    (demo.busy = false ∧ ∃ t, step (withInputs [.host (.write 0x00C 4 4)] demo) = .next t ∧ t.busy = true) ∧
    (issued .trunc demo).busy = true ∧ (∃ t, step (issued .trunc demo) = .next t ∧ t.busy = false) ∧
    (∃ t, step (withInputs [.reset] (issued .trunc demo)) = .next t ∧ t.busy = false) :=
  ⟨⟨by decide +kernel, exists_next (·.busy = true) (by decide +kernel)⟩, by decide +kernel,
    exists_next (·.busy = false) (by decide +kernel), exists_next (·.busy = false) (by decide +kernel)⟩

theorem witness_ErrorClearedOnlyByHostOrReset :
    ((demo.record .invalidLength 0).busy = false ∧ (4 : Word).getLsbD 2 = true) ∧
    (demo.record .invalidLength 0).err = true ∧
    (∃ t, step (withInputs [.host (.write 0x008 4 4)] (demo.record .invalidLength 0)) = .next t ∧ t.err = false) ∧
    (∃ t, step (withInputs [.reset] (demo.record .invalidLength 0)) = .next t ∧ t.err = false) :=
  ⟨by decide +kernel, by decide +kernel, exists_next (·.err = false) (by decide +kernel),
    exists_next (·.err = false) (by decide +kernel)⟩

theorem witness_InterruptRisesOnlyByCompletionOrEnable :
    (∃ t, exec .trunc (issued .trunc { demo with ie := true }) = .next t ∧
      (issued .trunc { demo with ie := true }).ie = true ∧ (issued .trunc { demo with ie := true }).busy = true ∧
      t.busy = false) ∧
    (∃ t, step (issued .trunc { demo with ie := true }) = .next t ∧
      (issued .trunc { demo with ie := true }).irq = false ∧ t.irq = true) ∧
    (∃ t, step (withInputs [.host (.write 0x004 4 1)] demo.finish) = .next t ∧
      demo.finish.irq = false ∧ t.irq = true) :=
  ⟨exists_next (fun t => (issued .trunc { demo with ie := true }).ie = true ∧
      (issued .trunc { demo with ie := true }).busy = true ∧ t.busy = false) (by decide +kernel),
    exists_next (fun t => (issued .trunc { demo with ie := true }).irq = false ∧ t.irq = true) (by decide +kernel),
    exists_next (fun t => demo.finish.irq = false ∧ t.irq = true) (by decide +kernel)⟩

theorem witness_CommandsLeaveHostRegistersAlone :
    ∃ t, exec .trunc demo = .next t ∧ t.truncval ≠ demo.truncval :=
  exists_next (·.truncval ≠ demo.truncval) (by decide +kernel)

theorem witness_FailedCommandWritesNothing :
    ∃ t, exec .hmac State.reset = .next t ∧ State.reset.err = false ∧ t.err = true :=
  exists_next (fun t => State.reset.err = false ∧ t.err = true) (by decide +kernel)

theorem witness_AllowedAccesses :
    Target.allowed .read 0x204 1 = none ∧ Target.allowed .write 0x000 4 = none ∧
    Target.allowed .write 0x640 1 = none := by decide

theorem witness_StatusBitsReadAndClear : demo.busy = false := by decide +kernel

/-- The values on both sides of every bound. -/
theorem witness_OperandRegisterWrites : State.reset.busy = false ∧
    (memWrite 0x018 4 2 State.reset).2.alg = .sha512 ∧ (memWrite 0x018 4 3 State.reset).2.err = true ∧
    (memWrite 0x01C 4 10 State.reset).2.digits = 10 ∧ (memWrite 0x01C 4 11 State.reset).2.err = true ∧
    (memWrite 0x028 4 260 State.reset).2.binlen = 260 ∧ (memWrite 0x028 4 261 State.reset).2.err = true ∧
    (memWrite 0x02C 4 416 State.reset).2.txtlen = 416 ∧ (memWrite 0x02C 4 417 State.reset).2.err = true ∧
    (memWrite 0x030 4 64 State.reset).2.diglen = 64 ∧ (memWrite 0x030 4 65 State.reset).2.err = true := by decide

theorem witness_CommandIssue :
    (issued .hotp State.reset).busy = true ∧ State.reset.busy = false ∧ legal 0xF03 = true ∧ legal 0x1003 = false := by
  decide

theorem witness_BufferByteReadsBack : State.reset.busy = false ∧
    (Buffer.bin ≠ .pwd ∧ 259 < Buffer.bin.capacity) ∧ (Buffer.txt ≠ .pwd ∧ 415 < Buffer.txt.capacity) ∧
    (Buffer.digest ≠ .pwd ∧ 63 < Buffer.digest.capacity) ∧ 9 < Buffer.pwd.capacity := by decide

theorem witness_LockoutWhileBusy : (issued .hmac demo).busy = true ∧
    (Target.allowed .write 0x008 4).isSome = true ∧ (Target.allowed .write 0x63F 1).isSome = true ∧
    9 < Buffer.pwd.capacity := by decide +kernel

theorem witness_CommandUsesOperandsAtIssue :
    (issued .trunc demo).busy = true ∧
    ∃ t, exec .trunc (issued .trunc demo) = .next t ∧ t.busy = false :=
  ⟨by decide +kernel, exists_next (·.busy = false) (by decide +kernel)⟩

theorem witness_AlphabetValues : 31 < 32 ∧ sym 31 = 0x37 ∧ sym 0 = 0x41 ∧ sym 25 = 0x5A ∧ sym 26 = 0x32 := by decide

theorem witness_EncodedTextSymbols : 7 < (enc32 [0x66]).length := by decide

theorem witness_TrailingPadsAreStripped : realSymbols (ascii "MY==") ≠ [] := by decide

theorem witness_DecodeRejects :
    (∃ h : 1 < (realSymbols (ascii "M!X")).length, val (realSymbols (ascii "M!X"))[1] = none ∧
      ∀ j (hj : j < 1), val (realSymbols (ascii "M!X"))[j] ≠ none) ∧
    ((∀ c ∈ realSymbols (ascii "MZX"), val c ≠ none) ∧ (realSymbols (ascii "MZX")).length % 8 ∈ [1, 3, 6]) :=
  ⟨⟨by decide, by decide, by decide⟩, by decide⟩

theorem witness_DecodedLength :
    (∀ c ∈ realSymbols (ascii "MZXW6YQ="), val c ≠ none) ∧
    (realSymbols (ascii "MZXW6YQ=")).length % 8 ∈ [0, 2, 4, 5, 7] ∧ (ascii "MZXW6YQ=").length ≤ 416 := by decide

theorem witness_B32encEncodesBin : demo.Inv ∧ demo.binlen = 16 := ⟨demo_inv, by decide +kernel⟩

theorem witness_B32decDecodesTxt :
    (demo.Inv ∧ demo.bytes .txt demo.txtlen.toNat = ascii "MY" ∧ dec32 (ascii "MY") = .ok [0x66]) ∧
    ((withText (ascii "M!X")).Inv ∧
      (withText (ascii "M!X")).bytes .txt (withText (ascii "M!X")).txtlen.toNat = ascii "M!X" ∧
      dec32 (ascii "M!X") = .error 0x00010001) :=
  ⟨⟨demo_inv, by decide +kernel, rfl⟩, bad_text_inv, by decide +kernel, rfl⟩

theorem witness_B32decAfterB32encRestoresBin : demo.Inv := demo_inv

theorem witness_ScrubTakesTheFirstDifferingDraw : scrub 5 [5, 5, 6, 7] = some (6, [7]) := rfl

/-- V-ERA-2's draws suffice for its PWD. -/
theorem witness_EraseOverwritesSelected :
    scrubAll ((Buffer.all.filter fun b => (0b1000 : BitVec 4).getLsbD b.selBit).flatMap
      fun b => (withDraws pwdDraws pwdState).bytes b b.capacity) (withDraws pwdDraws pwdState).draws =
      some ([0x41, 0x00, 0x99, 0x10, 0x11, 0x12, 0xab, 0x01, 0xac, 0xad], []) := by
  decide +kernel

theorem witness_EraseWaitsForDraws :
    scrubAll ((Buffer.all.filter fun b => (0b1000 : BitVec 4).getLsbD b.selBit).flatMap
      fun b => pwdState.bytes b b.capacity) pwdState.draws = none := by
  decide +kernel

theorem witness_DrawsThatSuffice : scrubAll [5, 9] [5, 6, 7, 8] = some ([6, 7], [8]) := rfl

/-- A buffer with every byte written, to the same value. -/
def fill (b : Buffer) (v : Byte) (s : State) : State := s.writeBuffer b (List.replicate b.capacity v)

/-- Every buffer byte written, to the same value. -/
def filled (v : Byte) : State := fill .pwd v (fill .digest v (fill .txt v (fill .bin v State.reset)))

/-- As many draws as there are buffer bytes. -/
def sourceDraws : List Byte := List.replicate 750 2

/-- Two states that differ in the secret and in what is computed from it. -/
def secretA : State :=
  { State.reset with mem := (filled 0).mem, draws := sourceDraws, binlen := 16, pwdlen := 6, code := 7 }
def secretB : State := { State.reset with mem := (filled 1).mem, draws := sourceDraws, binlen := 20, truncval := 9 }

theorem fill_bytes_own (b : Buffer) (v : Byte) (s : State) :
    (fill b v s).bytes b b.capacity = List.replicate b.capacity v := by
  have h := State.writeBuffer_bytes s b (List.replicate b.capacity v) (by rw [List.length_replicate])
  rw [List.length_replicate] at h
  exact h

theorem fill_bytes_other {b c : Buffer} (v : Byte) (s : State) (h : c ≠ b) :
    (fill b v s).bytes c c.capacity = s.bytes c c.capacity :=
  State.writeBuffer_bytes_other s _ c.capacity h le_rfl

theorem filled_bytes (v : Byte) (b : Buffer) : (filled v).bytes b b.capacity = List.replicate b.capacity v := by
  unfold filled
  cases b
  · rw [fill_bytes_other v _ (by decide), fill_bytes_other v _ (by decide), fill_bytes_other v _ (by decide),
      fill_bytes_own]
  · rw [fill_bytes_other v _ (by decide), fill_bytes_other v _ (by decide), fill_bytes_own]
  · rw [fill_bytes_other v _ (by decide), fill_bytes_own]
  · rw [fill_bytes_own]

theorem fill_wf (b : Buffer) (v : Byte) {s : State} (h : s.mem.wf = true) : (fill b v s).mem.wf = true :=
  Memory.wf_writeBytes _ _ _ h

theorem filled_wf (v : Byte) : (filled v).mem.wf = true := by
  unfold filled
  exact fill_wf _ _ (fill_wf _ _ (fill_wf _ _ (fill_wf _ _ rfl)))

theorem fill_mapped (b : Buffer) (v : Byte) {s : State} (h : ∀ c ∈ s.mem, mapped c.1 = true) :
    ∀ c ∈ (fill b v s).mem, mapped c.1 = true := writeBuffer_mapped h b _

theorem filled_mapped (v : Byte) : ∀ c ∈ (filled v).mem, mapped c.1 = true := by
  unfold filled
  exact fill_mapped _ _ (fill_mapped _ _ (fill_mapped _ _ (fill_mapped _ _ (by simp [State.reset]))))

theorem forall2_replicate {v w : Byte} (h : w ≠ v) (n : Nat) :
    List.Forall₂ (fun o d => d ≠ o) (List.replicate n v) (List.replicate n w) := by
  induction n with
  | zero => exact .nil
  | succ n ih => exact .cons h ih

/-- Draws of 2 differ from every byte of a state filled with another value. -/
theorem draws_suffice {v : Byte} (h : 2 ≠ v) (s : State)
    (hs : ∀ b : Buffer, s.bytes b b.capacity = (filled v).bytes b b.capacity) :
    List.Forall₂ (fun o d => d ≠ o) (Buffer.all.flatMap fun b => s.bytes b b.capacity)
      (sourceDraws.take 750) := by
  have hc : Buffer.bin.capacity + (Buffer.txt.capacity + (Buffer.digest.capacity + Buffer.pwd.capacity)) = 750 := rfl
  have he : (Buffer.all.flatMap fun b => s.bytes b b.capacity) = List.replicate 750 v := by
    simp only [hs, filled_bytes, Buffer.all, List.flatMap_cons, List.flatMap_nil, List.append_nil,
      List.replicate_append_replicate]
    rw [hc]
  rw [he, sourceDraws, List.take_replicate, Nat.min_self]
  exact forall2_replicate h 750

theorem filled_residue (v : Byte) : (filled v).residue = State.reset.residue := by
  unfold filled
  rfl

theorem secretA_mem : secretA.mem = (filled 0).mem := by simp only [secretA]
theorem secretB_mem : secretB.mem = (filled 1).mem := by simp only [secretB]

theorem secrets_agree :
    { secretB with mem := secretA.mem, binlen := secretA.binlen, txtlen := secretA.txtlen, diglen := secretA.diglen,
                   pwdlen := secretA.pwdlen, truncval := secretA.truncval, code := secretA.code,
                   residue := secretA.residue } = secretA := by
  simp only [secretA, secretB]

theorem secretA_draws_suffice :
    List.Forall₂ (fun o d => d ≠ o) (Buffer.all.flatMap fun b => secretA.bytes b b.capacity) (secretA.draws.take 750) := by
  exact draws_suffice (v := 0) (by decide) secretA fun b =>
    State.bytes_of_eq (s := filled 0) (t := secretA) (by rw [secretA]) (by rw [filled_residue]; rfl) b b.capacity

theorem secretB_draws_suffice :
    List.Forall₂ (fun o d => d ≠ o) (Buffer.all.flatMap fun b => secretB.bytes b b.capacity) (secretA.draws.take 750) := by
  exact draws_suffice (v := 1) (by decide) secretB fun b =>
    State.bytes_of_eq (s := filled 1) (t := secretB) (by rw [secretB]) (by rw [filled_residue]; rfl) b b.capacity

theorem witness_EraseAllForgetsTheSecret :
    secretA.mem.wf = true ∧ secretB.mem.wf = true ∧
    (∀ c ∈ secretA.mem, mapped c.1 = true) ∧ (∀ c ∈ secretB.mem, mapped c.1 = true) ∧
    { secretB with mem := secretA.mem, binlen := secretA.binlen, txtlen := secretA.txtlen, diglen := secretA.diglen,
                   pwdlen := secretA.pwdlen, truncval := secretA.truncval, code := secretA.code,
                   residue := secretA.residue } = secretA ∧
    List.Forall₂ (fun o d => d ≠ o) (Buffer.all.flatMap fun b => secretA.bytes b b.capacity) (secretA.draws.take 750) ∧
    List.Forall₂ (fun o d => d ≠ o) (Buffer.all.flatMap fun b => secretB.bytes b b.capacity) (secretA.draws.take 750) := by
  refine ⟨?_, ?_, ?_, ?_, secrets_agree, secretA_draws_suffice, secretB_draws_suffice⟩
  · rw [secretA_mem]; exact filled_wf 0
  · rw [secretB_mem]; exact filled_wf 1
  · rw [secretA_mem]; exact filled_mapped 0
  · rw [secretB_mem]; exact filled_mapped 1

theorem witness_TruncReadsFourBytesAtTheOffset : ∀ n ∈ [20, 32, 64], (List.replicate n (0xff : Byte)).length = n := by simp

/-- A state with a digest and one without. -/
theorem witness_TruncRendersTheDigest :
    (demo.Inv ∧ demo.diglen ≠ 0) ∧ (withText (ascii "M!X")).Inv ∧ (withText (ascii "M!X")).diglen = 0 :=
  ⟨⟨demo_inv, by decide +kernel⟩, bad_text_inv, rfl⟩

theorem witness_PaddingFillsTheLastBlock :
    ((64 = 64 ∧ 8 = 8) ∨ (64 = 128 ∧ 8 = 16)) ∧ ((128 = 64 ∧ 16 = 8) ∨ (128 = 128 ∧ 16 = 16)) := by decide

theorem witness_ScheduleRecurrences :
    (List.replicate 64 (0 : Byte)).length = 64 ∧ (List.replicate 128 (0 : Byte)).length = 128 := by simp

theorem witness_CompressionRunsItsRounds :
    (List.replicate 64 (0 : Byte)).length = 64 ∧ (List.replicate 128 (0 : Byte)).length = 128 := by simp

/-- One byte over SHA-1's block, and a key padded to exactly a block. -/
theorem witness_HmacKeyRules : ∃ B, B = (match HashAlg.sha1 with | .sha1 => 64 | .sha256 => 64 | .sha512 => 128) ∧
    B < (keyR 65).length ∧ (keyR 60).length + 4 ≤ B := ⟨64, rfl, by decide, by decide⟩

/-- BINLEN at the minimum, and one below it: V-KEY-1. -/
theorem witness_HmacDigestsTheCounter :
    (demo.Inv ∧ 16 ≤ demo.binlen.toNat ∧ demo.binlen.toNat ≤ 16) ∧
    { demo with binlen := 15 }.Inv ∧ { demo with binlen := 15 }.binlen.toNat < 16 :=
  ⟨⟨demo_inv, by decide +kernel, by decide +kernel⟩, { demo_inv with binlenRange := by decide +kernel }, by decide +kernel⟩

theorem witness_ShortSecretIsRejected :
    { demo with binlen := 15 }.binlen.toNat < 16 ∧ 16 ≤ demo.binlen.toNat := by decide +kernel

theorem witness_HotpTurnsCounterIntoPassword :
    (demo.Inv ∧ 16 ≤ demo.binlen.toNat) ∧
    { demo with binlen := 15 }.Inv ∧ { demo with binlen := 15 }.binlen.toNat < 16 :=
  ⟨⟨demo_inv, by decide +kernel⟩, { demo_inv with binlenRange := by decide +kernel }, by decide +kernel⟩

theorem witness_HotpIsHmacThenTrunc :
    (demo.Inv ∧ 16 ≤ demo.binlen.toNat) ∧
    { demo with binlen := 15 }.Inv ∧ { demo with binlen := 15 }.binlen.toNat < 16 := witness_HotpTurnsCounterIntoPassword

/-- The same key, hash function and counter beside another text and another number of digits. -/
theorem witness_HmacDependsOnItsOperandsAlone :
    demo.Inv ∧ { demo with txtlen := 1, digits := 8 }.Inv ∧ 16 ≤ demo.binlen.toNat ∧
    (∀ i, i < demo.binlen.toNat → { demo with txtlen := 1, digits := 8 }.byte .bin i = demo.byte .bin i) :=
  ⟨demo_inv, { demo_inv with digitsRange := by decide +kernel, txtlenRange := by decide +kernel }, by decide +kernel, fun _ _ => rfl⟩

end Sys2Proof.Tests
end

section
/-! PROOFS. The statements on the state of `10_state.md`: what every step keeps, who sets and clears BUSY, what commands
and the host leave alone, and what each register reads and takes. -/

namespace Sys2Proof.Machine

/-! ### The reset state -/

/-- Settles O11: register by register. -/
theorem resetStateReadsAsSpecified : Obligations.ResetStateReadsAsSpecified := by
  intro r
  cases r <;> rfl

/-- Settles O12: every field of the reset state is a literal, and with PWDLEN 0 nothing is said of PWD. -/
theorem resetSatisfiesInvariants : Obligations.ResetSatisfiesInvariants where
  digitsRange := by decide
  binlenRange := by decide
  txtlenRange := by decide
  diglenRange := .inl rfl
  pwdlenRange := .inl rfl
  codeBound := by decide
  errcodeIffErr := by decide
  errcodeRaised := by decide
  inFlightLegal := fun hb => nomatch hb
  codeFits := fun hp => absurd rfl hp
  passwordSpellsCode := fun hp => absurd rfl hp
  memoryCanonical := rfl
  memoryMapped := fun _ hc => nomatch hc

/-! ### The invariants through the moves of host, random source and reset -/

/-- The invariants say nothing of the agents' moves to come. -/
theorem inv_withInputs {s : State} (h : s.Inv) (ins : List Event) : { s with inputs := ins }.Inv := { h with }

theorem inv_deliverByte {s : State} (h : s.Inv) (b : Byte) : (deliverByte b s).Inv := { h with }

/-- Reset leaves the reset state's registers and no written byte, whatever the residue. -/
theorem inv_resetEvent (s : State) : (resetEvent s).Inv :=
  { resetSatisfiesInvariants with passwordSpellsCode := fun hp => absurd rfl hp }

theorem inv_hazard {s : State} (h : s.Inv) : s.hazard.Inv := { h with }

theorem inv_clearFlags {s : State} (h : s.Inv) (v : Word) : (s.clearFlags v).Inv :=
  { h with
    errcodeIffErr := by
      rw [State.clearFlags_err, State.clearFlags_errcode]
      cases v.getLsbD 2
      · simpa using h.errcodeIffErr
      · simp
    errcodeRaised := by
      rw [State.clearFlags_errcode]
      split
      · decide
      · exact h.errcodeRaised }

theorem inv_issue {s : State} (h : s.Inv) (w : Word) : (s.issue w).Inv := by
  unfold State.issue
  split
  · rename_i hw; exact { h with inFlightLegal := fun _ => hw }
  · exact inv_record h _ w (by decide)

/-- A register write keeps the invariants: what it takes is in range, what it rejects is recorded. -/
theorem inv_writeReg {s : State} (h : s.Inv) (r : Reg) (v : Word) : (s.writeReg r v).Inv := by
  cases r <;> simp only [State.writeReg]
  case ctrl | ctrLo | ctrHi => exact { h with }
  case status => exact inv_clearFlags h v
  case cmd => exact inv_issue h v
  case alg =>
    split
    · exact { h with }
    · exact inv_record h _ v (by decide)
  case digits =>
    split
    · rename_i hv; exact { h with digitsRange := hv }
    · exact inv_record h _ v (by decide)
  case binlen =>
    split
    · rename_i hv; exact { h with binlenRange := hv }
    · exact inv_record h _ v (by decide)
  case txtlen =>
    split
    · rename_i hv; exact { h with txtlenRange := hv }
    · exact inv_record h _ v (by decide)
  case diglen =>
    split
    · rename_i hv; exact { h with diglenRange := .inr hv }
    · exact inv_record h _ v (by decide)
  case id | errcode | errinfo | pwdlen | truncval | code => exact h

theorem inv_transact {s : State} (h : s.Inv) (x : Txn) : (transact x s).2.Inv := by
  rcases transact_cases x s with ht | ⟨_, ht⟩ | ⟨_, r, v, _, _, ht⟩ | ⟨_, b, i, v, _, hb, hi, ht⟩ <;> rw [ht]
  · exact h
  · exact inv_hazard h
  · exact inv_writeReg h r v
  · exact inv_writeByte h b i _ hb hi

theorem inv_hostStep {s : State} (h : s.Inv) (x : Txn) : (hostStep x s).Inv := { inv_transact h x with }

/-! ### The invariants through the commands -/

/-- What a command's rule comes to keeps the invariants: the state it wrote has them, or the error it raises is one of
the kinds commands raise (`60_exceptions.md` R261). -/
def Result.KeepsInv : Result → Prop
  | .written s' => s'.Inv
  | .raised k _ => k = .invalidEncoding ∨ k = .invalidSecret ∨ k = .invalidLength

theorem inv_complete {r : Result} {s : State} (h : s.Inv) (hr : r.KeepsInv) : (complete r s).Inv := by
  cases r with
  | written s' => exact inv_finish hr
  | raised k info =>
    refine inv_finish (inv_record h k info ?_)
    rcases hr with rfl | rfl | rfl <;> decide

theorem encodeResult_keepsInv {s : State} (h : s.Inv) : (encodeResult s).KeepsInv :=
  { inv_writeBuffer h .txt (enc32 s.rawBytes) (by decide) with
    txtlenRange := by
      have hc : (enc32 s.rawBytes).length ≤ 416 := txt_fits s h
      show (BitVec.ofNat 32 (enc32 s.rawBytes).length).toNat ≤ 416
      rw [ofNat_toNat_lt _ (by omega)]
      exact hc }

theorem decodeResult_keepsInv {s : State} (h : s.Inv) : (decodeResult s).KeepsInv := by
  unfold decodeResult
  split
  · rename_i out hout
    exact { inv_writeBuffer h .bin out (by decide) with
      binlenRange := by
        have hc : out.length ≤ 260 := bin_fits s h out hout
        show (BitVec.ofNat 32 out.length).toNat ≤ 260
        rw [ofNat_toNat_lt _ (by omega)]
        exact hc }
  · exact .inl rfl

theorem truncResult_keepsInv {s : State} (h : s.Inv) : (truncResult s).KeepsInv := by
  unfold truncResult
  split
  · exact .inr (.inr rfl)
  · exact inv_storePassword h _

theorem hmacResult_keepsInv {s : State} (h : s.Inv) : (hmacResult s).KeepsInv := by
  unfold hmacResult
  split
  · exact .inr (.inl rfl)
  · exact inv_storeDigest h _

theorem hotpResult_keepsInv {s : State} (h : s.Inv) : (hotpResult s).KeepsInv := by
  unfold hotpResult
  split
  · exact .inr (.inl rfl)
  · exact inv_storePassword (inv_storeDigest h _) _

/-- Erasing PWD overwrites the spelling of CODE, which the invariants allow because PWDLEN becomes 0 with it. -/
theorem inv_writeBuffer_release {s : State} (h : s.Inv) (b : Buffer) (bs : List Byte) :
    ((s.writeBuffer b bs).release b).Inv := by
  cases b
  case bin => exact { inv_writeBuffer h .bin bs (by decide) with binlenRange := Nat.zero_le _ }
  case txt => exact { inv_writeBuffer h .txt bs (by decide) with txtlenRange := Nat.zero_le _ }
  case digest => exact { inv_writeBuffer h .digest bs (by decide) with diglenRange := .inl rfl }
  case pwd =>
    exact { h with
      pwdlenRange := .inl rfl
      codeBound := Nat.le_refl _
      codeFits := fun hp => absurd rfl hp
      passwordSpellsCode := fun hp => absurd rfl hp
      memoryCanonical := Memory.wf_writeBytes _ _ _ h.memoryCanonical
      memoryMapped := writeBuffer_mapped h.memoryMapped .pwd bs }

theorem inv_eraseIfSelected {sel : BitVec 4} {b : Buffer} {s t : State} (h : s.Inv)
    (ht : eraseIfSelected sel b s = some t) : t.Inv := by
  unfold eraseIfSelected eraseBuffer at ht
  split at ht
  · split at ht
    · cases ht
    · rename_i news left _
      cases ht
      exact inv_writeBuffer_release (s := { s with draws := left }) { h with } b news
  · cases ht; exact h

theorem inv_eraseSelected {sel : BitVec 4} {s t : State} (h : s.Inv) (ht : eraseSelected sel s = some t) : t.Inv := by
  simp only [eraseSelected, Option.bind_eq_some_iff] at ht
  obtain ⟨u₃, ⟨u₂, ⟨u₁, h₁, h₂⟩, h₃⟩, h₄⟩ := ht
  exact inv_eraseIfSelected (inv_eraseIfSelected (inv_eraseIfSelected (inv_eraseIfSelected h h₁) h₂) h₃) h₄

theorem inv_exec {i : Instr} {s t : State} (h : s.Inv) (ht : exec i s = .next t) : t.Inv := by
  cases i
  case b32enc => cases ht; exact inv_complete h (encodeResult_keepsInv h)
  case b32dec => cases ht; exact inv_complete h (decodeResult_keepsInv h)
  case trunc => cases ht; exact inv_complete h (truncResult_keepsInv h)
  case hmac => cases ht; exact inv_complete h (hmacResult_keepsInv h)
  case hotp => cases ht; exact inv_complete h (hotpResult_keepsInv h)
  case erase sel =>
    simp only [exec, execErase] at ht
    split at ht
    · rename_i s' hs'
      cases ht
      exact inv_finish (inv_eraseSelected h hs')
    · cases ht; exact h

/-- Settles O13: each agent's move keeps the invariants. -/
theorem stepKeepsInvariants : Obligations.StepKeepsInvariants := by
  intro s t h hst
  rcases step_cases hst with ⟨rest, x, _, rfl⟩ | ⟨rest, b, _, rfl⟩ | ⟨rest, _, rfl⟩ |
    ⟨_, ins, ⟨_, rfl⟩ | ⟨_, i, _, ht⟩⟩
  · exact inv_hostStep (inv_withInputs h rest) x
  · exact inv_deliverByte (inv_withInputs h rest) b
  · exact inv_resetEvent _
  · exact inv_withInputs h ins
  · exact inv_exec (inv_withInputs h ins) ht

/-! ### BUSY -/

/-- A transaction leaves BUSY alone, or it is a CMD write of a legal word while BUSY = 0 (`30_encoding.md` R97). -/
theorem transact_busy (x : Txn) (s : State) :
    (transact x s).2.busy = s.busy ∨
      s.busy = false ∧ ∃ w, x = .write Reg.cmd.offset 4 w ∧ legal w = true ∧ (transact x s).2 = s.accept w := by
  rcases transact_cases x s with ht | ⟨_, ht⟩ | ⟨hb, r, v, hx, _, ht⟩ | ⟨_, b, i, v, _, _, _, ht⟩ <;> rw [ht]
  · exact .inl rfl
  · exact .inl rfl
  · rcases writeReg_busy r v s with hw | ⟨rfl, hv, hw⟩
    · exact .inl hw
    · exact .inr ⟨hb, v, hx, hv, hw⟩
  · exact .inl rfl

/-- What a step can do to BUSY: leave it, set it by an accepted CMD write, or clear it on the sequencer's turn or by
reset. -/
theorem step_busy {s t : State} (h : step s = .next t) :
    t.busy = s.busy ∨
    (t.busy = true ∧ ∃ w rest, s.inputs = .host (.write Reg.cmd.offset 4 w) :: rest ∧ legal w = true ∧
      t.cmdreg = w ∧ t.done = false) ∨
    (t.busy = false ∧
      (s.inputs = [] ∨ (∃ rest, s.inputs = .sequencer :: rest) ∨ ∃ rest, s.inputs = .reset :: rest)) := by
  rcases step_cases h with ⟨rest, x, hin, rfl⟩ | ⟨rest, b, _, rfl⟩ | ⟨rest, hin, rfl⟩ |
    ⟨hin, ins, ⟨_, rfl⟩ | ⟨_, i, _, ht⟩⟩
  · rcases transact_busy x { s with inputs := rest } with hx | ⟨_, w, rfl, hw, hx⟩
    · exact .inl hx
    · refine .inr (.inl ?_)
      simp only [hostStep, hx]
      exact ⟨rfl, w, rest, hin, hw, rfl, rfl⟩
  · exact .inl rfl
  · exact .inr (.inr ⟨rfl, .inr (.inr ⟨rest, hin⟩)⟩)
  · exact .inl rfl
  · rcases exec_flags ht with rfl | ⟨hb, _⟩
    · exact .inl rfl
    · exact .inr (.inr ⟨hb, hin.imp_right .inl⟩)

/-- Settles O15: of the three things a step can do to BUSY (`step_busy`), one sets it and one clears it. -/
theorem busyChangesOnlyByIssueAndCompletion : Obligations.BusyChangesOnlyByIssueAndCompletion := by
  intro s t h
  rcases step_busy h with hsame | ⟨hset, hissue⟩ | ⟨hclear, hturn⟩
  · rw [hsame]
    exact ⟨fun h₀ h₁ => absurd (h₀.symm.trans h₁) (by decide), fun h₁ h₀ => absurd (h₀.symm.trans h₁) (by decide)⟩
  · exact ⟨fun _ _ => hissue, fun _ h₀ => absurd (h₀.symm.trans hset) (by decide)⟩
  · exact ⟨fun _ h₁ => absurd (hclear.symm.trans h₁) (by decide), fun _ _ => hturn⟩

/-! ### What commands and the host leave alone -/

/-- Settles O18: a command waits, records an error, or makes writes that keep `SameHost`. -/
theorem commandsLeaveHostRegistersAlone : Obligations.CommandsLeaveHostRegistersAlone := by
  intro i s t h
  rcases exec_cases h with rfl | ⟨k, info, rfl⟩ | ⟨s', hs, rfl⟩
  · simp
  · simp
  · simp [hs.ie, hs.hzd, hs.cmdreg, hs.alg, hs.digits, hs.ctrLo, hs.ctrHi, hs.residue, hs.inputs, hs.response]

/-- `t` agrees with `s` on the password and the result registers (`10_state.md` R36, R37, R38, R42). -/
structure SameResults (s t : State) : Prop where
  pwdlen : t.pwdlen = s.pwdlen
  truncval : t.truncval = s.truncval
  code : t.code = s.code
  pwd : ∀ i, i < Buffer.pwd.capacity → t.byte .pwd i = s.byte .pwd i

theorem SameResults.of_eq {s t : State} (hl : t.pwdlen = s.pwdlen) (hv : t.truncval = s.truncval)
    (hc : t.code = s.code) (hm : t.mem = s.mem) (hr : t.residue = s.residue) : SameResults s t :=
  ⟨hl, hv, hc, fun _ _ => State.readByte_of_eq hm hr _⟩

/-- No register's write rule touches the results or the memory. -/
theorem writeReg_sameResults (r : Reg) (v : Word) (s : State) : SameResults s (s.writeReg r v) := by
  cases r <;> simp only [State.writeReg, State.issue]
  case cmd | alg | digits | binlen | txtlen | diglen => split <;> exact .of_eq rfl rfl rfl rfl rfl
  case ctrl | status | ctrLo | ctrHi | id | errcode | errinfo | pwdlen | truncval | code =>
    exact .of_eq rfl rfl rfl rfl rfl

theorem writeByte_sameResults {b : Buffer} {i : Nat} (hb : b ≠ .pwd) (hi : i < b.capacity) (v : Byte) (s : State) :
    SameResults s (s.writeByte b i v) where
  pwdlen := rfl
  truncval := rfl
  code := rfl
  pwd j hj := by
    rw [State.byte, State.writeByte_readByte, if_neg fun he => hb (Buffer.place_inj hj hi he).1.symm, State.byte]

theorem transact_sameResults (x : Txn) (s : State) : SameResults s (transact x s).2 := by
  rcases transact_cases x s with ht | ⟨_, ht⟩ | ⟨_, r, v, _, _, ht⟩ | ⟨_, b, i, v, _, hb, hi, ht⟩ <;> rw [ht]
  · exact .of_eq rfl rfl rfl rfl rfl
  · exact .of_eq rfl rfl rfl rfl rfl
  · exact writeReg_sameResults r v s
  · exact writeByte_sameResults hb hi _ s

/-- Settles O20: the write rules leave the results alone, and PWD's bytes are no write's target. -/
theorem hostCannotWriteResults : Obligations.HostCannotWriteResults := by
  intro x s
  obtain ⟨hl, hv, hc, hp⟩ := transact_sameResults x s
  exact ⟨hl, hv, hc, hp⟩

/-! ### Reads and writes of registers -/

/-- Settles O22: each offset is its register's (`readReg_at`). -/
theorem registerReadsArePure : Obligations.RegisterReadsArePure := by
  intro s
  have hctrl : s.readReg .ctrl = if s.ie then 1 else 0 := by
    cases hie : s.ie <;> simp [State.readReg, hie]
  refine ⟨readReg_at .id s, hctrl ▸ readReg_at .ctrl s, readReg_at .status s, readReg_at .cmd s,
    readReg_at .errcode s, readReg_at .errinfo s, ?_, readReg_at .digits s,
    readReg_at .ctrLo s, readReg_at .ctrHi s, readReg_at .binlen s, readReg_at .txtlen s,
    readReg_at .diglen s, readReg_at .pwdlen s, readReg_at .truncval s, readReg_at .code s⟩
  refine (readReg_at .alg s).trans ?_
  simp only [State.readReg]
  cases s.alg <;> rfl

/-- The bits of STATUS as a read returns them (`10_state.md` R26). -/
theorem statusWord_getLsbD (s : State) (k : Nat) :
    s.statusWord.getLsbD k = [s.busy, s.done, s.err, s.hzd].getD k false := by
  simp only [State.statusWord, BitVec.getLsbD_setWidth, BitVec.getLsbD_append, BitVec.getLsbD_ofBool]
  rcases k with _ | _ | _ | _ | k <;> simp

/-- Settles O23: the bits of `statusWord`, and `clearFlags` as the write rule of STATUS. -/
theorem statusBitsReadAndClear : Obligations.StatusBitsReadAndClear := by
  intro s
  refine ⟨⟨statusWord_getLsbD s 0, statusWord_getLsbD s 1, statusWord_getLsbD s 2, statusWord_getLsbD s 3, ?_⟩,
    fun v hb => ⟨s.clearFlags v, write_at .status rfl v s hb, ?_, ?_, rfl, rfl, ?_, rfl⟩⟩
  · intro k hk
    rw [statusWord_getLsbD]
    exact List.getD_eq_default _ _ hk
  · rw [State.clearFlags_done]; cases v.getLsbD 1 <;> simp
  · rw [State.clearFlags_err]; cases v.getLsbD 2 <;> simp
  · rw [State.clearFlags_hzd]; cases v.getLsbD 3 <;> simp

/-- Settles O24: `writeReg` at each offset. -/
theorem operandRegisterWrites : Obligations.OperandRegisterWrites := by
  intro s v hb
  have at_offset (r : Reg) (hr : r.readOnly = false) := write_at r hr v s hb
  refine ⟨(at_offset .alg rfl).trans ?_, at_offset .digits rfl, at_offset .binlen rfl, at_offset .txtlen rfl,
    at_offset .diglen rfl, at_offset .ctrl rfl, at_offset .ctrLo rfl, at_offset .ctrHi rfl⟩
  congr 1
  simp only [State.writeReg, HashAlg.ofWord]
  split_ifs <;> rfl

end Sys2Proof.Machine
end

section
/-! PROOFS. The statements on the host's interface of `20_memory.md`: which accesses are allowed, the buffers' bytes
through it, and that a command in flight takes no notice of the host. -/

namespace Sys2Proof.Machine

/-! ### Moves of the host and of the random source -/

/-- Settles O9: `perform` for the host's move and for a delivered byte. -/
theorem stepPerformsTheNextInput : Obligations.StepPerformsTheNextInput := by
  intro s rest
  constructor
  · intro x hin
    simp only [step, advance, hin, perform, hostStep]
  · intro b hin
    simp only [step, advance, hin, perform, deliverByte]

/-! ### Allowed accesses -/

theorem Target.permits_reg_iff (k : AccessKind) (r : Reg) :
    Target.permits k (.reg r) = true ↔ k = .read ∨ r.readOnly = false := by
  cases k <;> simp [Target.permits]

theorem Target.permits_byte_iff (k : AccessKind) (b : Buffer) (i : Nat) :
    Target.permits k (.byte b i) = true ↔ k = .read ∨ b ≠ .pwd := by
  cases k <;> simp [Target.permits]

/-- An access is allowed when it is of a register or of a buffer byte, and of one that may be accessed so. -/
theorem Target.allowed_isSome_iff (k : AccessKind) (addr n : Nat) :
    (Target.allowed k addr n).isSome = true ↔
      (n = 4 ∧ ∃ r : Reg, addr = r.offset ∧ (k = .read ∨ r.readOnly = false)) ∨
      (n = 1 ∧ ∃ (b : Buffer) (i : Nat), addr = b.base + i ∧ i < b.capacity ∧ (k = .read ∨ b ≠ .pwd)) := by
  simp only [Option.isSome_iff_exists, allowed_some]
  constructor
  · rintro ⟨t, hn, hp⟩
    rcases named_cases hn with ⟨r, rfl, rfl, rfl⟩ | ⟨b, i, rfl, rfl, hi, rfl⟩
    · exact .inl ⟨rfl, r, rfl, (permits_reg_iff k r).mp hp⟩
    · exact .inr ⟨rfl, b, i, rfl, hi, (permits_byte_iff k b i).mp hp⟩
  · rintro (⟨rfl, r, rfl, hp⟩ | ⟨rfl, b, i, rfl, hi, hp⟩)
    · exact ⟨.reg r, named_reg r, (permits_reg_iff k r).mpr hp⟩
    · exact ⟨.byte b i, named_byte b i hi, (permits_byte_iff k b i).mpr hp⟩

theorem Reg.offset_aligned (r : Reg) : r.offset < 0x040 ∧ r.offset % 4 = 0 := by cases r <;> decide

theorem Reg.exists_offset_eq {addr : Nat} (h : addr < 0x040) (ha : addr % 4 = 0) : ∃ r : Reg, addr = r.offset := by
  have hall : ∀ a < 0x040, a % 4 = 0 → ∃ r ∈ Reg.all, a = r.offset := by decide
  obtain ⟨r, _, hr⟩ := hall addr h ha
  exact ⟨r, hr⟩

/-- The read-only registers by offset (`20_memory.md` R64). -/
theorem Reg.readOnly_eq_false_iff (r : Reg) :
    r.readOnly = false ↔ r.offset ∉ [0x000, 0x010, 0x014, 0x034, 0x038, 0x03C] := by
  cases r <;> decide

/-- The register accesses of R64 by offset. -/
theorem reg_access_iff (k : AccessKind) (addr : Nat) :
    (∃ r : Reg, addr = r.offset ∧ (k = .read ∨ r.readOnly = false)) ↔
      addr < 0x040 ∧ addr % 4 = 0 ∧ (k = .read ∨ addr ∉ [0x000, 0x010, 0x014, 0x034, 0x038, 0x03C]) := by
  constructor
  · rintro ⟨r, rfl, hp⟩
    exact ⟨r.offset_aligned.1, r.offset_aligned.2, hp.imp_right r.readOnly_eq_false_iff.mp⟩
  · rintro ⟨hlt, halign, hp⟩
    obtain ⟨r, rfl⟩ := Reg.exists_offset_eq hlt halign
    exact ⟨r, rfl, hp.imp_right r.readOnly_eq_false_iff.mpr⟩

/-- The byte accesses of R64 by offset. -/
theorem byte_access_iff (k : AccessKind) (addr : Nat) :
    (∃ (b : Buffer) (i : Nat), addr = b.base + i ∧ i < b.capacity ∧ (k = .read ∨ b ≠ .pwd)) ↔
      ((0x100 ≤ addr ∧ addr ≤ 0x203) ∨ (0x400 ≤ addr ∧ addr ≤ 0x59F) ∨ (0x600 ≤ addr ∧ addr ≤ 0x63F)) ∨
      (0x680 ≤ addr ∧ addr ≤ 0x689 ∧ k = .read) := by
  constructor
  · rintro ⟨b, i, rfl, hi, hp⟩
    cases b <;> simp only [Buffer.base, Buffer.capacity, Config.binMax, Config.txtMax, Config.digestMax,
      Config.pwdMax] at hi ⊢
    case bin | txt | digest => omega
    case pwd => exact .inr ⟨by omega, by omega, hp.resolve_right fun h => h rfl⟩
  · have place (b : Buffer) (hp : k = .read ∨ b ≠ .pwd) (hlo : b.base ≤ addr) (hhi : addr < b.base + b.capacity) :
        ∃ (b : Buffer) (i : Nat), addr = b.base + i ∧ i < b.capacity ∧ (k = .read ∨ b ≠ .pwd) :=
      ⟨b, addr - b.base, by omega, by omega, hp⟩
    rintro ((⟨hlo, hhi⟩ | ⟨hlo, hhi⟩ | ⟨hlo, hhi⟩) | ⟨hlo, hhi, hk⟩)
    · exact place .bin (.inr (by decide)) hlo (Nat.lt_succ_of_le hhi)
    · exact place .txt (.inr (by decide)) hlo (Nat.lt_succ_of_le hhi)
    · exact place .digest (.inr (by decide)) hlo (Nat.lt_succ_of_le hhi)
    · exact place .pwd (.inl hk) hlo (Nat.lt_succ_of_le hhi)

theorem memRead_of_not_allowed {addr n : Nat} (s : State) (h : Target.allowed .read addr n = none) :
    memRead addr n s = (.accessFault, s) := by
  simp [memRead, h]

theorem memWrite_of_not_allowed {addr n : Nat} (v : Word) (s : State) (h : Target.allowed .write addr n = none) :
    memWrite addr n v s = (.accessFault, s) := by
  simp [memWrite, h]

/-- Settles O21: `Target.allowed_isSome_iff` with its registers and bytes by offset, and the two faults. -/
theorem allowedAccesses : Obligations.AllowedAccesses := by
  refine ⟨fun k addr n => ?_, fun _ _ s h => memRead_of_not_allowed s h, fun _ _ v s h => memWrite_of_not_allowed v s h⟩
  rw [Target.allowed_isSome_iff, reg_access_iff, byte_access_iff]
  exact or_congr and_left_comm and_or_left

/-! ### Buffer bytes -/

/-- What a read of a buffer byte answers, BUSY or not (`20_memory.md` R62). -/
theorem memRead_byte {b : Buffer} {i : Nat} (hi : i < b.capacity) (s : State) :
    memRead (b.base + i) 1 s =
      if s.busy then (.value 0, s.hazard) else (.value ((s.byte b i).setWidth 32), s) := by
  have h : Target.allowed .read (b.base + i) 1 = some (.byte b i) := allowed_some.mpr ⟨named_byte b i hi, rfl⟩
  simp only [memRead, h]

/-- What a write of a byte of BIN, TXT or DIGEST does, BUSY or not (`20_memory.md` R63). -/
theorem memWrite_byte {b : Buffer} {i : Nat} (hb : b ≠ .pwd) (hi : i < b.capacity) (v : Word) (s : State) :
    memWrite (b.base + i) 1 v s = (.ok, if s.busy then s.hazard else s.writeByte b i (v.setWidth 8)) := by
  have h : Target.allowed .write (b.base + i) 1 = some (.byte b i) :=
    allowed_some.mpr ⟨named_byte b i hi, (Target.permits_byte_iff .write b i).mpr (.inr hb)⟩
  simp only [memWrite, h]

/-- The low byte of a word, as a word. -/
theorem lowByte_setWidth (v : Word) : (v.setWidth 8).setWidth 32 = v &&& 0xFF := by
  apply BitVec.eq_of_toNat_eq
  have hmask : v.toNat &&& 0xFF = v.toNat % 2 ^ 8 := Nat.and_two_pow_sub_one_eq_mod v.toNat 8
  rw [BitVec.toNat_setWidth, BitVec.toNat_setWidth, BitVec.toNat_and]
  refine Eq.trans ?_ hmask.symm
  omega

/-- Settles O26: `writeByte` stores the low byte at its own offset and touches the memory alone. -/
theorem bufferByteReadsBack : Obligations.BufferByteReadsBack := by
  intro s b i hidle hi
  refine ⟨by rw [memRead_byte hi, hidle]; rfl, fun v hb => ⟨s.writeByte b i (v.setWidth 8), ?_, ?_, ?_, rfl⟩⟩
  · rw [memWrite_byte hb hi, hidle]; rfl
  · have hstored : (s.writeByte b i (v.setWidth 8)).byte b i = v.setWidth 8 := by
      rw [State.byte, State.writeByte_readByte, if_pos rfl]
    rw [memRead_byte hi, hstored, lowByte_setWidth, State.writeByte_busy, hidle]; rfl
  · intro a ha
    rw [State.writeByte_readByte, if_neg ha]

/-! ### A command in flight and the host -/

/-- `s` with other values of all that the host can change while a command is in flight: HZD and the host's own
response (`70_reset_and_hazards.md` R298). -/
def State.withHost (h : Bool) (r : Response) (s : State) : State := { s with hzd := h, response := r }

/-- A host transaction while BUSY = 1 changes HZD and the response at most. -/
theorem hostStep_of_busy (x : Txn) {s : State} (hb : s.busy = true) :
    ∃ (h : Bool) (r : Response), hostStep x s = s.withHost h r := by
  rcases transact_cases x s with ht | ⟨_, ht⟩ | ⟨hidle, _⟩ | ⟨hidle, _⟩
  · exact ⟨s.hzd, (transact x s).1, by simp only [hostStep, ht, State.withHost]⟩
  · exact ⟨true, (transact x s).1, by simp only [hostStep, ht, State.hazard, State.withHost]⟩
  · exact absurd (hb.symm.trans hidle) (by decide)
  · exact absurd (hb.symm.trans hidle) (by decide)

/-- So do any number of them, BUSY staying 1. -/
theorem hostSteps_of_busy (xs : List Txn) {s : State} (hb : s.busy = true) :
    ∃ (h : Bool) (r : Response), xs.foldl (fun u x => hostStep x u) s = s.withHost h r := by
  induction xs generalizing s with
  | nil => exact ⟨s.hzd, s.response, rfl⟩
  | cons x xs ih =>
    obtain ⟨h₁, r₁, hx⟩ := hostStep_of_busy x hb
    obtain ⟨h₂, r₂, hxs⟩ := ih (s := s.withHost h₁ r₁) hb
    exact ⟨h₂, r₂, by rw [List.foldl_cons, hx, hxs]; rfl⟩

section
variable (h : Bool) (r : Response) (s : State)

/-- The same result, reached from the state with another HZD and response. -/
def Result.withHost : Result → Result
  | .written s' => .written (s'.withHost h r)
  | .raised k info => .raised k info

theorem complete_withHost (res : Result) :
    complete (res.withHost h r) (s.withHost h r) = (complete res s).withHost h r := by
  cases res <;> rfl

theorem encodeResult_withHost : encodeResult (s.withHost h r) = (encodeResult s).withHost h r := rfl

theorem decodeResult_withHost : decodeResult (s.withHost h r) = (decodeResult s).withHost h r := by
  have htext : (s.withHost h r).text = s.text := rfl
  unfold decodeResult
  rw [htext]
  split <;> rfl

theorem truncResult_withHost : truncResult (s.withHost h r) = (truncResult s).withHost h r := by
  simp only [truncResult, apply_ite (Result.withHost h r)]
  rfl

theorem hmacResult_withHost : hmacResult (s.withHost h r) = (hmacResult s).withHost h r := by
  simp only [hmacResult, apply_ite (Result.withHost h r)]
  rfl

theorem hotpResult_withHost : hotpResult (s.withHost h r) = (hotpResult s).withHost h r := by
  simp only [hotpResult, apply_ite (Result.withHost h r)]
  rfl

theorem eraseBuffer_withHost (b : Buffer) :
    eraseBuffer b (s.withHost h r) = (eraseBuffer b s).map (State.withHost h r) := by
  have hscrub : scrubAll ((s.withHost h r).bytes b b.capacity) (s.withHost h r).draws =
      scrubAll (s.bytes b b.capacity) s.draws := rfl
  unfold eraseBuffer
  rw [hscrub]
  split
  · rfl
  · cases b <;> rfl

theorem eraseIfSelected_withHost (sel : BitVec 4) (b : Buffer) :
    eraseIfSelected sel b (s.withHost h r) = (eraseIfSelected sel b s).map (State.withHost h r) := by
  unfold eraseIfSelected
  split
  · exact eraseBuffer_withHost h r s b
  · rfl

theorem bind_eraseIfSelected_withHost (sel : BitVec 4) (b : Buffer) (o : Option State) :
    (o.map (State.withHost h r)).bind (eraseIfSelected sel b) =
      (o.bind (eraseIfSelected sel b)).map (State.withHost h r) := by
  cases o with
  | none => rfl
  | some u => exact eraseIfSelected_withHost h r u sel b

theorem eraseSelected_withHost (sel : BitVec 4) :
    eraseSelected sel (s.withHost h r) = (eraseSelected sel s).map (State.withHost h r) := by
  simp only [eraseSelected, eraseIfSelected_withHost h r s, bind_eraseIfSelected_withHost]

end

/-- No command reads or writes HZD or the response: with other values of the two it comes to the same state but for
them. -/
theorem exec_withHost (h : Bool) (r : Response) {i : Instr} {s t : State} (ht : exec i s = .next t) :
    exec i (s.withHost h r) = .next (t.withHost h r) := by
  cases i <;> simp only [exec, execB32enc, execB32dec, execErase, execTrunc, execHmac, execHotp] at ht ⊢
  case b32enc => cases ht; rw [encodeResult_withHost, complete_withHost]
  case b32dec => cases ht; rw [decodeResult_withHost, complete_withHost]
  case trunc => cases ht; rw [truncResult_withHost, complete_withHost]
  case hmac => cases ht; rw [hmacResult_withHost, complete_withHost]
  case hotp => cases ht; rw [hotpResult_withHost, complete_withHost]
  case erase sel =>
    rw [eraseSelected_withHost]
    cases hsel : eraseSelected sel s with
    | none => rw [hsel] at ht; cases ht; rfl
    | some s' => rw [hsel] at ht; cases ht; rfl

/-- Settles O28: the host changes HZD and the response at most (`hostSteps_of_busy`), which no command reads
(`exec_withHost`). -/
theorem commandUsesOperandsAtIssue : Obligations.CommandUsesOperandsAtIssue := by
  intro i s t xs hb ht
  obtain ⟨h, r, hxs⟩ := hostSteps_of_busy xs hb
  exact ⟨h, r, hxs ▸ exec_withHost h r ht⟩

end Sys2Proof.Machine
end

section
/-! PROOFS. The statements on the command words of `30_encoding.md`: the decoder reads a command off the three fields of
a word, a word is its three fields, and what issuing and carrying out a command word do. -/

namespace Sys2Proof.Machine

/-! ### The fields of a word -/

/-- A word is its three fields (`30_encoding.md` R91). -/
theorem word_eq_iff_fields (w v : Word) :
    w = v ↔ zeroField w = zeroField v ∧ selField w = selField v ∧ opField w = opField v := by
  constructor
  · rintro rfl; exact ⟨rfl, rfl, rfl⟩
  · rintro ⟨hz, hs, ho⟩
    have fields (u : Word) : zeroField u ++ selField u ++ opField u = u := by
      have hhigh : zeroField u ++ selField u = u.extractLsb' 8 24 :=
        BitVec.extractLsb'_append_extractLsb'_eq_extractLsb' rfl
      rw [hhigh]
      exact (BitVec.extractLsb'_append_extractLsb'_eq_extractLsb' rfl).trans BitVec.extractLsb'_eq_self
    rw [← fields w, ← fields v, hz, hs, ho]

theorem zeroField_and (w v : Word) : zeroField (w &&& v) = zeroField w &&& zeroField v := BitVec.extractLsb'_and ..

theorem selField_and (w v : Word) : selField (w &&& v) = selField w &&& selField v := BitVec.extractLsb'_and ..

theorem opField_and (w v : Word) : opField (w &&& v) = opField w &&& opField v := BitVec.extractLsb'_and ..

/-- ERASE's mask leaves out the bits of SEL, so its match says nothing of them (`30_encoding.md` R93). -/
theorem erase_mask_eq_iff (w : Word) : w &&& 0xFFFFF0FF = 0x00000003 ↔ zeroField w = 0 ∧ opField w = 3 := by
  have hz : zeroField (w &&& 0xFFFFF0FF) = zeroField w := (zeroField_and ..).trans BitVec.and_allOnes
  have hs : selField (w &&& 0xFFFFF0FF) = 0 := (selField_and ..).trans BitVec.and_zero
  have ho : opField (w &&& 0xFFFFF0FF) = opField w := (opField_and ..).trans BitVec.and_allOnes
  rw [word_eq_iff_fields, hz, hs, ho]
  exact and_congr_right fun _ => and_iff_right rfl

/-- The mask of every other command leaves out nothing (`30_encoding.md` R93). -/
theorem full_mask (w : Word) : w &&& 0xFFFFFFFF = w := BitVec.and_allOnes

/-! ### Decoder and encoder -/

/-- The mask a command's word holds in SEL: ERASE's operand, 0 for the commands without one (`30_encoding.md` R91). -/
def selOf : Instr → BitVec 4
  | .erase sel => sel
  | .b32enc | .b32dec | .trunc | .hmac | .hotp => 0

theorem selField_encode (i : Instr) : selField (encode i) = selOf i := by
  cases i
  case erase sel => revert sel; decide
  case b32enc | b32dec | trunc | hmac | hotp => rfl

/-- The fields of a command's word: 0, its SEL and its opcode (`30_encoding.md` R91, R93). -/
theorem encode_fields (i : Instr) :
    zeroField (encode i) = 0 ∧ selField (encode i) = selOf i ∧ opField (encode i) = Laws.EncodingIsLegal.opcode i := by
  have hword : Laws.EncodingIsLegal.Statement i := by
    cases i
    case b32enc => exact Laws.EncodingIsLegal.b32enc
    case b32dec => exact Laws.EncodingIsLegal.b32dec
    case erase sel => exact Laws.EncodingIsLegal.erase sel
    case trunc => exact Laws.EncodingIsLegal.trunc
    case hmac => exact Laws.EncodingIsLegal.hmac
    case hotp => exact Laws.EncodingIsLegal.hotp
  obtain ⟨_, hop, hzero⟩ := hword
  exact ⟨hzero, selField_encode i, hop⟩

theorem withoutSel_eq_ok_iff (w : Word) (j i : Instr) : withoutSel w j = .ok i ↔ selField w = 0 ∧ j = i := by
  unfold withoutSel
  split
  case isTrue hsel => simp only [hsel, Except.ok.injEq, true_and]
  case isFalse hsel => simp only [hsel, reduceCtorEq, false_and]

/-- What the decoder reads: a word decodes to `i` when its fields are those of the word of `i`. -/
theorem decode_eq_ok_iff_fields (w : Word) (i : Instr) : decode w = .ok i ↔
    zeroField w = 0 ∧ selField w = selOf i ∧ opField w = Laws.EncodingIsLegal.opcode i := by
  constructor
  · intro h
    unfold decode at h
    split at h
    case isTrue => cases h
    case isFalse hz =>
      have hzero : zeroField w = 0 := not_not.mp hz
      split at h
      case h_3 hop =>
        cases h
        exact ⟨hzero, rfl, BitVec.eq_of_toNat_eq hop⟩
      case h_7 => cases h
      case h_1 hop | h_2 hop | h_4 hop | h_5 hop | h_6 hop =>
        obtain ⟨hsel, rfl⟩ := (withoutSel_eq_ok_iff ..).mp h
        exact ⟨hzero, hsel, BitVec.eq_of_toNat_eq hop⟩
  · rintro ⟨hzero, hsel, hop⟩
    cases i <;> simp [decode, withoutSel, hzero, hsel, hop, selOf, Laws.EncodingIsLegal.opcode]

/-- The decoder and the encoder are one relation. -/
theorem decode_eq_ok_iff (w : Word) (i : Instr) : decode w = .ok i ↔ w = encode i := by
  obtain ⟨hz, hs, ho⟩ := encode_fields i
  rw [decode_eq_ok_iff_fields, word_eq_iff_fields, hz, hs, ho]

@[simp] theorem decode_encode (i : Instr) : decode (encode i) = .ok i := (decode_eq_ok_iff _ i).mpr rfl

/-- Settles O1: the decoder reads the word's fields, which are the command's. -/
theorem encodedCommandDecodes : Obligations.EncodedCommandDecodes := fun i _ => decode_encode i

/-- Settles O2: the fields the decoder reads are the whole word. -/
theorem decodedWordIsItsEncoding : Obligations.DecodedWordIsItsEncoding :=
  fun w i h => ((decode_eq_ok_iff w i).mp h).symm

/-- Settles O3: a full mask asks for the command's own word, and ERASE's for its fields but SEL. -/
theorem opcodeMapSelects : Obligations.OpcodeMapSelects := by
  intro w
  have full (i : Instr) : decode w = .ok i ↔ w &&& 0xFFFFFFFF = encode i := by
    rw [full_mask, decode_eq_ok_iff]
  refine ⟨full .b32enc, full .b32dec, fun sel => ?_, full .trunc, full .hmac, full .hotp⟩
  rw [erase_mask_eq_iff, decode_eq_ok_iff_fields, and_assoc, and_comm (a := opField w = 3), eq_comm (a := sel)]
  rfl

/-- Settles O6: each of the words is the encoding of its command. -/
theorem specWordsDecode : Obligations.SpecWordsDecode :=
  ⟨decode_encode .b32enc, decode_encode .b32dec, decode_encode (.erase 0b0011), decode_encode (.erase 0b1000),
   decode_encode .trunc, decode_encode .hmac, decode_encode .hotp⟩

/-! ### Legal words -/

theorem exists_instr_iff (p : Instr → Prop) :
    (∃ i, p i) ↔ p .b32enc ∨ p .b32dec ∨ (∃ sel, p (.erase sel)) ∨ p .trunc ∨ p .hmac ∨ p .hotp := by
  constructor
  · rintro ⟨i, h⟩
    cases i
    case b32enc => exact .inl h
    case b32dec => exact .inr (.inl h)
    case erase sel => exact .inr (.inr (.inl ⟨sel, h⟩))
    case trunc => exact .inr (.inr (.inr (.inl h)))
    case hmac => exact .inr (.inr (.inr (.inr (.inl h))))
    case hotp => exact .inr (.inr (.inr (.inr (.inr h))))
  · rintro (h | h | ⟨sel, h⟩ | h | h | h) <;> exact ⟨_, h⟩

/-- The rows of the opcode map are the commands' masks and matches (`30_encoding.md` R93, R94). -/
theorem legal_iff_decodes (w : Word) : legal w = true ↔ ∃ i, decode w = .ok i := by
  obtain ⟨henc, hdec, herase, htrunc, hhmac, hhotp⟩ := opcodeMapSelects w
  rw [exists_instr_iff]
  simp only [henc, hdec, herase, htrunc, hhmac, hhotp, exists_and_left, exists_eq, and_true]
  simp only [legal, opRows, OpRow.selects, List.any_cons, List.any_nil, Bool.or_false, Bool.or_eq_true, beq_iff_eq]

theorem legal_iff_encodes (w : Word) : legal w = true ↔ ∃ i, w = encode i := by
  simp only [legal_iff_decodes, decode_eq_ok_iff]

/-- SEL stands above the opcode, so joining the two is adding them. -/
theorem encode_erase (sel : BitVec 4) : encode (.erase sel) = 3 + sel.setWidth 32 * 256 := by
  revert sel; decide

/-- Settles O4: the legal words are the encodings, listed command by command. -/
theorem legalWordsAreTheDecodedOnes : Obligations.LegalWordsAreTheDecodedOnes := by
  refine ⟨legal_iff_decodes, fun w => ?_⟩
  rw [legal_iff_encodes, exists_instr_iff]
  simp only [encode_erase]
  simp only [encode, List.mem_cons, List.not_mem_nil, or_false]
  tauto

/-- The OP and SEL of legal words: an opcode, and a mask where the opcode is ERASE's (`30_encoding.md` R94). -/
theorem exists_opcode_iff (sel : BitVec 4) (op : BitVec 8) :
    (∃ i, sel = selOf i ∧ op = Laws.EncodingIsLegal.opcode i) ↔ op ≠ 0 ∧ op.toNat < 7 ∧ (sel = 0 ∨ op = 3) := by
  rw [exists_instr_iff]
  simp only [selOf, Laws.EncodingIsLegal.opcode, exists_and_right, exists_eq', true_and]
  bv_omega

/-- Which words are legal, by their fields (`30_encoding.md` R94). -/
theorem legal_iff_fields (w : Word) : legal w = true ↔
    zeroField w = 0 ∧ opField w ≠ 0 ∧ (opField w).toNat < 7 ∧ (selField w = 0 ∨ opField w = 3) := by
  simp only [legal_iff_decodes, decode_eq_ok_iff_fields, exists_and_left, exists_opcode_iff]

/-! ### Issue -/

/-- A register write while BUSY = 1 is discarded by the lockout (`70_reset_and_hazards.md` R298). -/
theorem write_at_busy (r : Reg) (hr : r.readOnly = false) (v : Word) (s : State) (hb : s.busy = true) :
    memWrite r.offset 4 v s = (.ok, s.hazard) := by
  have hreg : Target.allowed .write r.offset 4 = some (.reg r) :=
    allowed_some.mpr ⟨named_reg r, (Target.permits_reg_iff .write r).mpr (.inr hr)⟩
  simp only [memWrite, hreg, hb, if_true]

/-- Settles O25: the lockout, and the write rule of CMD. -/
theorem commandIssue : Obligations.CommandIssue := fun s w =>
  ⟨fun hbusy => write_at_busy .cmd rfl w s hbusy, fun hidle => write_at .cmd rfl w s hidle⟩

/-- Settles O5: the fields of legal words (`legal_iff_fields`) denied, and the issue of a word that is not legal. -/
theorem illegalWordStartsNothing : Obligations.IllegalWordStartsNothing := by
  intro w
  constructor
  · rw [← Bool.not_eq_true, legal_iff_fields]
    show _ ↔ opField w = 0 ∨ 7 ≤ (opField w).toNat ∨ (selField w ≠ 0 ∧ opField w ≠ 3) ∨ zeroField w ≠ 0
    rw [← Nat.not_lt]
    tauto
  · intro hillegal s hidle
    rw [(commandIssue s w).2 hidle, hillegal]
    rfl

/-! ### The sequencer's turn -/

theorem step_of_no_inputs {s : State} (h : s.inputs = []) : step s = sequencerTurn s := by
  simp only [step, advance, h]

theorem step_of_sequencer_next {s : State} {rest : List Event} (h : s.inputs = .sequencer :: rest) :
    step s = sequencerTurn { s with inputs := rest } := by
  simp only [step, advance, h, perform]

theorem sequencerTurn_of_busy {s : State} {i : Instr} (hb : s.busy = true) (hi : decode s.cmdreg = .ok i) :
    sequencerTurn s = exec i s := by
  simp only [sequencerTurn, hb, hi, if_true]

theorem sequencerTurn_of_idle {s : State} (hb : s.busy = false) : sequencerTurn s = .next s := by
  simp [sequencerTurn, hb]

/-- The state in which a word is placed has that word in CMDREG. -/
theorem withFetchWord_encode (s : State) (i : Instr) :
    s.withFetchWord 32 (encode i).toNat = s.inFlight (encode i) := by
  rw [State.withFetchWord, Nat.mod_eq_of_lt (encode i).isLt, BitVec.ofNat_toNat, BitVec.setWidth_eq]

/-- Settles O7: the sequencer's turn comes last or when it is next, and CMDREG holds the command's word. -/
theorem stepRunsTheCommandInFlight : Obligations.StepRunsTheCommandInFlight := by
  refine ⟨fun s i hb hi => ⟨fun hin => ?_, fun rest hin => ?_⟩, fun s i _ => ?_⟩
  · rw [step_of_no_inputs hin, sequencerTurn_of_busy hb hi]
  · rw [step_of_sequencer_next hin]
    exact sequencerTurn_of_busy hb hi
  · rw [withFetchWord_encode, step_of_sequencer_next (State.inFlight_inputs (encode i) s)]
    exact sequencerTurn_of_busy rfl (decode_encode i)

/-- Settles O8: the sequencer's turn with BUSY = 0. -/
theorem sequencerIdleWithoutCommand : Obligations.SequencerIdleWithoutCommand := by
  intro s hb
  refine ⟨fun hin => ?_, fun rest hin => ?_⟩
  · rw [step_of_no_inputs hin, sequencerTurn_of_idle hb]
  · rw [step_of_sequencer_next hin]
    exact sequencerTurn_of_idle hb

end Sys2Proof.Machine
end

section
/-! PROOFS. The statements on the Base32 codec of `40_base32.md`: the alphabet, the text symbol by symbol, what the
decoder rejects and accepts, and what B32ENC and B32DEC write. -/

namespace Sys2Proof.Machine

/-! ### The alphabet -/

theorem sym_toNat {v : Nat} (h : v < 32) : (sym v).toNat = if v ≤ 25 then 0x41 + v else 0x32 + (v - 26) := by
  unfold sym
  split <;> (rw [BitVec.toNat_ofNat]; omega)

/-- The three ranges of the alphabet (`40_base32.md` R121). -/
theorem val_eq_some_iff_toNat (c : Byte) (v : Nat) : val c = some v ↔
    (v ≤ 25 ∧ (c.toNat = 0x41 + v ∨ c.toNat = 0x61 + v)) ∨ (26 ≤ v ∧ v < 32 ∧ c.toNat = 0x32 + (v - 26)) := by
  unfold val
  split_ifs <;> simp only [Option.some.injEq, false_iff] <;> omega

/-- The characters of a value: its symbol and, for a letter, its lower case (`40_base32.md` R121). -/
theorem val_eq_some_iff (c : Byte) (v : Nat) :
    val c = some v ↔ v < 32 ∧ (c = sym v ∨ (v ≤ 25 ∧ c.toNat = 0x61 + v)) := by
  rw [val_eq_some_iff_toNat]
  by_cases hv : v < 32
  · rw [← BitVec.toNat_inj, sym_toNat hv]
    split <;> omega
  · omega

/-- Settles O29: `sym_toNat` and `val_eq_some_iff`. -/
theorem alphabetValues : Obligations.AlphabetValues := ⟨fun _ h => sym_toNat h, val_eq_some_iff⟩

theorem val_sym {v : Nat} (h : v < 32) : val (sym v) = some v := (val_eq_some_iff _ v).mpr ⟨h, .inl rfl⟩

theorem filterMap_val_syms {vs : List Nat} (h : ∀ v ∈ vs, v < 32) : (vs.map sym).filterMap val = vs := by
  have hsome : vs.filterMap (val ∘ sym) = vs.filterMap some := List.filterMap_congr fun v hv => val_sym (h v hv)
  rw [List.filterMap_map, hsome, List.filterMap_some]

theorem val_ne_none_of_mem_syms {vs : List Nat} (h : ∀ v ∈ vs, v < 32) : ∀ c ∈ vs.map sym, val c ≠ none := by
  intro c hc
  obtain ⟨v, hv, rfl⟩ := List.mem_map.mp hc
  rw [val_sym (h v hv)]
  exact Option.some_ne_none v

/-! ### The text, symbol by symbol -/

/-- The 5-bit group `k` of a byte string's bits, counted from the most significant. -/
def bitGroup (s : List Byte) (k : Nat) : Nat := be s / 2 ^ (8 * s.length - 5 * (k + 1)) % 32

/-- A group that lies in the front part of a string is that part's. -/
theorem bitGroup_append_left (s t : List Byte) {k : Nat} (hk : 5 * (k + 1) ≤ 8 * s.length) :
    bitGroup (s ++ t) k = bitGroup s k := by
  have hexp : 8 * (s ++ t).length - 5 * (k + 1) = 8 * t.length + (8 * s.length - 5 * (k + 1)) := by
    rw [List.length_append]; omega
  have hfront : be (s ++ t) / 2 ^ (8 * t.length) = be s := by
    rw [be_append, show 2 ^ (8 * t.length) = 256 ^ t.length from pow_mul 2 8 _, Nat.mul_comm,
      Nat.mul_add_div (by positivity), Nat.div_eq_of_lt (be_lt t), Nat.add_zero]
  rw [bitGroup, hexp, pow_add, ← Nat.div_div_eq_div_mul, hfront, bitGroup]

/-- Behind a front part of whole groups, the groups are those of the rest. -/
theorem bitGroup_append_right (s t : List Byte) {g k : Nat} (hs : 8 * s.length = 5 * g)
    (hk : 5 * (k + 1) ≤ 8 * t.length) : bitGroup (s ++ t) (g + k) = bitGroup t k := by
  have hexp : 8 * (s ++ t).length - 5 * (g + k + 1) = 8 * t.length - 5 * (k + 1) := by
    rw [List.length_append]; omega
  obtain ⟨e, he⟩ : ∃ e, 8 * t.length = 8 * t.length - 5 * (k + 1) + (5 + e) :=
    ⟨8 * t.length - (8 * t.length - 5 * (k + 1)) - 5, by omega⟩
  have hrest : be (s ++ t) = 2 ^ (8 * t.length - 5 * (k + 1)) * (32 * (be s * 2 ^ e)) + be t := by
    rw [be_append, show (256 : Nat) = 2 ^ 8 from rfl, ← pow_mul, he, pow_add, pow_add, ← he]
    ring
  rw [bitGroup, hexp, hrest, Nat.mul_add_div (by positivity), Nat.mul_add_mod, bitGroup]

/-- A byte string with the zeros that fill its last chunk (`40_base32.md` R122). -/
def zeroPadded (b : List Byte) : List Byte := b ++ List.replicate (5 * ((b.length + 4) / 5) - b.length) 0

theorem zeroPadded_length (b : List Byte) : (zeroPadded b).length = 5 * ((b.length + 4) / 5) := by
  rw [zeroPadded, List.length_append, List.length_replicate]
  omega

theorem zeroPadded_append {c : List Byte} (hc : c.length = 5) (d : List Byte) :
    zeroPadded (c ++ d) = c ++ zeroPadded d := by
  rw [zeroPadded, zeroPadded, List.append_assoc, List.length_append, hc]
  congr 3
  omega

/-- The chunk that fills up to 5 bytes is those bytes and zeros. -/
theorem zeroPadded_chunk {c : List Byte} (h0 : c ≠ []) (h5 : c.length ≤ 5) :
    zeroPadded c = c ++ List.replicate (5 - c.length) 0 := by
  have hpos := List.length_pos_iff.mpr h0
  rw [zeroPadded, show 5 * ((c.length + 4) / 5) = 5 by omega]

/-- The symbols of a chunk of `n` bytes that are not `=` hold a bit of it (`40_base32.md` R123). -/
theorem lt_sub_padCount_iff {n : Nat} (h0 : 0 < n) (h5 : n ≤ 5) (k : Nat) : k < 8 - padCount n ↔ 5 * k < 8 * n := by
  interval_cases n <;> simp only [padCount] <;> omega

theorem getElem_encChunk {c : List Byte} (h0 : c ≠ []) (h5 : c.length ≤ 5) (k : Nat) (hk : k < (encChunk c).length) :
    (encChunk c)[k] = if 5 * k < 8 * c.length then sym (bitGroup (zeroPadded c) k) else padChar := by
  have hpos := List.length_pos_iff.mpr h0
  have hlen : (zeroPadded c).length = 5 := by rw [zeroPadded_length]; omega
  rw [encChunk_length] at hk
  rw [bitGroup, hlen, zeroPadded_chunk h0 h5, show 8 * 5 - 5 * (k + 1) = 35 - 5 * k by omega]
  simp only [encChunk]
  split
  case isTrue h =>
    have hreal := (lt_sub_padCount_iff hpos h5 k).mpr h
    rw [List.getElem_append_left (by simpa using hreal), List.getElem_take, List.getElem_map,
      List.getElem_range]
  case isFalse h =>
    have hpad := mt (lt_sub_padCount_iff hpos h5 k).mp h
    rw [List.getElem_append_right (by simp; omega), List.getElem_replicate]

/-- The text over the whole string: each group that holds a bit of it by its symbol, the others by `=`
(`40_base32.md` R122). -/
theorem getElem_enc32 (b : List Byte) (k : Nat) (hk : k < (enc32 b).length) :
    (enc32 b)[k] = if 5 * k < 8 * b.length then sym (bitGroup (zeroPadded b) k) else padChar := by
  induction hn : b.length using Nat.strong_induction_on generalizing b k with
  | _ n ih =>
  subst hn
  have hne : b ≠ [] := by rintro rfl; simp at hk
  rcases Nat.lt_or_ge 5 b.length with h5 | h5
  · obtain ⟨c, d, hc, rfl⟩ : ∃ c d : List Byte, c.length = 5 ∧ b = c ++ d :=
      ⟨b.take 5, b.drop 5, by simp; omega, (List.take_append_drop 5 b).symm⟩
    have hcne : c ≠ [] := by rintro rfl; simp at hc
    rw [List.length_append, hc] at h5
    simp only [enc32_append c d hc, zeroPadded_append hc, List.length_append, hc]
    rcases Nat.lt_or_ge k 8 with h8 | h8
    · rw [List.getElem_append_left (by simpa using h8), getElem_encChunk hcne hc.le, if_pos (by omega),
        if_pos (by omega), bitGroup_append_left c _ (by omega), zeroPadded_chunk hcne hc.le, hc, Nat.sub_self,
        List.replicate_zero, List.append_nil]
    · obtain ⟨j, rfl⟩ : ∃ j, k = 8 + j := ⟨k - 8, by omega⟩
      have hj : j < (enc32 d).length := by
        simp only [enc32_append c d hc, List.length_append, encChunk_length] at hk
        omega
      have hgroup : bitGroup (c ++ zeroPadded d) (8 + j) = bitGroup (zeroPadded d) j := by
        refine bitGroup_append_right c _ (by omega) ?_
        rw [zeroPadded_length]
        rw [enc32_length] at hj
        omega
      rw [List.getElem_append_right (by simp)]
      simp only [encChunk_length, Nat.add_sub_cancel_left]
      rw [ih d.length (by simp [hc]) d j hj rfl, hgroup]
      exact if_congr (by omega) rfl rfl
  · simp only [enc32_short b hne h5]
    exact getElem_encChunk hne h5 k _

/-- Settles O30: `getElem_enc32`, its groups written out. -/
theorem encodedTextSymbols : Obligations.EncodedTextSymbols := by
  intro b
  refine ⟨enc32_length b, fun k hk => ?_⟩
  rw [getElem_enc32, bitGroup, zeroPadded_length, ← Nat.mul_assoc]
  rfl

/-! ### Real symbols -/

theorem realSymbols_eq_rdropWhile (t : List Byte) : realSymbols t = t.rdropWhile (· == padChar) := rfl

/-- Settles O31: what is dropped from the end is `=`, and the last symbol kept is not. -/
theorem trailingPadsAreStripped : Obligations.TrailingPadsAreStripped := by
  intro t
  simp only [realSymbols_eq_rdropWhile]
  constructor
  · have hpads : t.rtakeWhile (· == padChar) = List.replicate (t.rtakeWhile (· == padChar)).length padChar :=
      List.eq_replicate_of_mem fun c hc => beq_iff_eq.mp (List.mem_rtakeWhile_imp (p := (· == padChar)) hc)
    refine ⟨(t.rtakeWhile (· == padChar)).length, ?_⟩
    exact List.rdropWhile_append_rtakeWhile.symm.trans (congrArg _ hpads)
  · intro h hlast
    exact List.rdropWhile_last_not (· == padChar) t h (beq_iff_eq.mpr hlast)

theorem realSymbols_append_pads (t : List Byte) (k : Nat) :
    realSymbols (t ++ List.replicate k padChar) = realSymbols t := by
  rw [realSymbols, List.reverse_append, List.reverse_replicate, List.dropWhile_append_of_pos (by simp), realSymbols]

theorem realSymbols_map {f : Byte → Byte} (hf : ∀ c, (f c == padChar) = (c == padChar)) (t : List Byte) :
    realSymbols (t.map f) = (realSymbols t).map f := by
  have hpad : ((· == padChar) ∘ f) = (· == padChar) := funext hf
  rw [realSymbols, ← List.map_reverse, List.dropWhile_map, hpad, ← List.map_reverse, realSymbols]

/-! ### What the decoder gives -/

/-- The decoder looks at the real symbols alone (`40_base32.md` R125). -/
theorem dec32_congr {t u : List Byte} (h : realSymbols t = realSymbols u) : dec32 t = dec32 u := by
  rw [dec32, h, dec32]

theorem dec32_of_firstInvalid {t : List Byte} {i : Nat} (h : firstInvalid 0 (realSymbols t) = some i) :
    dec32 t = .error (0x00010000 ||| BitVec.ofNat 32 i) := by
  simp only [dec32, h]

theorem dec32_of_bad_length {t : List Byte} (h : ∀ c ∈ realSymbols t, val c ≠ none)
    (hm : (realSymbols t).length % 8 ∈ [1, 3, 6]) :
    dec32 t = .error (0x00020000 ||| BitVec.ofNat 32 (realSymbols t).length) := by
  simp only [List.mem_cons, List.not_mem_nil, or_false] at hm
  simp only [dec32, (firstInvalid_none_iff 0 _).mpr h, if_pos hm]

theorem dec32_of_good_length {t : List Byte} (h : ∀ c ∈ realSymbols t, val c ≠ none)
    (hm : (realSymbols t).length % 8 ∉ [1, 3, 6]) :
    dec32 t = .ok ((chunks 8 ((realSymbols t).filterMap val)).flatMap decGroup) := by
  simp only [List.mem_cons, List.not_mem_nil, or_false] at hm
  simp only [dec32, (firstInvalid_none_iff 0 _).mpr h, if_neg hm]

/-- Settles O32: the first invalid character is the one `firstInvalid` finds, and without one the length decides. -/
theorem decodeRejects : Obligations.DecodeRejects := by
  intro t
  refine ⟨fun i h hi hj => dec32_of_firstInvalid ?_, dec32_of_bad_length⟩
  rw [firstInvalid_some _ 0 i h hi hj, Nat.zero_add]

/-- Settles O33: the groups' bytes are the bytes of all the bits (`getElem_decoded`). -/
theorem decodedLength : Obligations.DecodedLength := by
  intro t hval hm
  have hgood : (realSymbols t).length % 8 ∉ [1, 3, 6] := by
    simp only [List.mem_cons, List.not_mem_nil, or_false] at hm ⊢
    omega
  have hout := dec32_of_good_length hval hgood
  have hlen := dec32_ok_length hout
  have hcount := filterMap_val_length _ hval
  have hle := realSymbols_length_le t
  refine ⟨_, hout, hlen, fun _ => by omega, fun i hi => ?_⟩
  have hvs : ∀ v ∈ (realSymbols t).filterMap val, v < 32 := by
    intro v hv
    obtain ⟨c, _, hc⟩ := List.mem_filterMap.mp hv
    exact val_lt hc
  rw [getElem_decoded _ hvs (by rwa [hcount]) i hi, hcount, symbolBits, symbolBits_filterMap _ hval]

/-- Settles O34: the text is the symbols of values that decode to the bytes (`enc32_values`), then `=`. -/
theorem decodeInvertsEncode : Obligations.DecodeInvertsEncode := by
  intro b
  obtain ⟨vs, p, htext, hvs, hlen, hbytes⟩ := enc32_values b
  have hreal : realSymbols (enc32 b) = vs.map sym := by rw [htext, realSymbols_syms vs p hvs]
  rw [dec32_of_good_length, hreal, filterMap_val_syms hvs, hbytes]
  · rw [hreal]; exact val_ne_none_of_mem_syms hvs
  · rw [hreal, List.length_map]; simpa using hlen

/-- Settles O36: the decoder looks at the real symbols alone. -/
theorem decodeIgnoresPadCount : Obligations.DecodeIgnoresPadCount :=
  fun t k => dec32_congr (realSymbols_append_pads t k)

/-! ### Letter case -/

theorem firstInvalid_map {f : Byte → Byte} (hval : ∀ c, val (f c) = val c) (i : Nat) (u : List Byte) :
    firstInvalid i (u.map f) = firstInvalid i u := by
  induction u generalizing i with
  | nil => rfl
  | cons c u ih => rw [List.map_cons, firstInvalid, hval, ih, firstInvalid]

/-- Replacing characters by others of the same value, `=` by itself, changes nothing for the decoder. -/
theorem dec32_map {f : Byte → Byte} (hval : ∀ c, val (f c) = val c) (hpad : ∀ c, (f c == padChar) = (c == padChar))
    (t : List Byte) : dec32 (t.map f) = dec32 t := by
  have hvals : val ∘ f = val := funext hval
  simp only [dec32, realSymbols_map hpad, firstInvalid_map hval, List.length_map, List.filterMap_map, hvals]

/-- A letter's lower case, every other byte itself. -/
def lowerLetter (c : Byte) : Byte := if 0x41 ≤ c.toNat ∧ c.toNat ≤ 0x5A then c + 0x20 else c

theorem lowerLetter_toNat (c : Byte) :
    (lowerLetter c).toNat = if 0x41 ≤ c.toNat ∧ c.toNat ≤ 0x5A then c.toNat + 0x20 else c.toNat := by
  unfold lowerLetter
  split <;> bv_omega

theorem val_lowerLetter (c : Byte) : val (lowerLetter c) = val c := by
  ext v
  rw [val_eq_some_iff_toNat, val_eq_some_iff_toNat, lowerLetter_toNat]
  split <;> omega

theorem lowerLetter_beq_padChar (c : Byte) : (lowerLetter c == padChar) = (c == padChar) := by
  rw [Bool.eq_iff_iff, beq_iff_eq, beq_iff_eq, ← BitVec.toNat_inj, ← BitVec.toNat_inj, lowerLetter_toNat,
    show padChar.toNat = 0x3D from rfl]
  split <;> omega

/-- Settles O35: a letter's lower case has its value, and no letter is `=`. -/
theorem decodeIgnoresCase : Obligations.DecodeIgnoresCase :=
  dec32_map val_lowerLetter lowerLetter_beq_padChar

/-! ### B32ENC and B32DEC -/

/-- What a state reads whose memory is another's after a `writeBuffer` that fits: the bytes stored, and every other
offset as before (`70_reset_and_hazards.md` R300). -/
theorem readBack_of_writeBuffer {s t : State} {b : Buffer} {bs : List Byte} (hm : t.mem = (s.writeBuffer b bs).mem)
    (hr : t.residue = s.residue) (hfit : bs.length ≤ b.capacity) :
    t.bytes b bs.length = bs ∧
    ∀ a, (∀ i, i < bs.length → a ≠ b.base + i) → t.readByte a = s.readByte a := by
  refine ⟨(State.bytes_of_eq hm hr b _).trans (State.writeBuffer_bytes s b bs hfit), fun a ha => ?_⟩
  rw [State.readByte_of_eq hm hr, State.writeBuffer_readByte_outside s b bs a fun i hi _ => ha i hi]

/-- The state B32ENC completes in (`40_base32.md` R124). -/
def State.encoded (s : State) : State :=
  { s.writeBuffer .txt (enc32 s.rawBytes) with
    txtlen := BitVec.ofNat 32 (enc32 s.rawBytes).length, busy := false, done := true }

/-- The state B32DEC completes in when the text decodes to `out` (`40_base32.md` R129). -/
def State.decoded (out : List Byte) (s : State) : State :=
  { s.writeBuffer .bin out with binlen := BitVec.ofNat 32 out.length, busy := false, done := true }

/-- The state B32DEC completes in when the text does not decode (`40_base32.md` R129). -/
def State.decodeFailed (info : Word) (s : State) : State :=
  { s with busy := false, done := true, err := true, errcode := 0x01, errinfo := info }

theorem exec_b32enc (s : State) : exec .b32enc s = .next s.encoded := rfl

theorem exec_b32dec_ok {s : State} {out : List Byte} (h : dec32 s.text = .ok out) :
    exec .b32dec s = .next (s.decoded out) := by
  rw [exec, execB32dec, decodeResult, h]
  rfl

theorem exec_b32dec_error {s : State} {info : Word} (h : dec32 s.text = .error info) :
    exec .b32dec s = .next (s.decodeFailed info) := by
  rw [exec, execB32dec, decodeResult, h]
  rfl

/-- The text fits TXTLEN (`40_base32.md` R131). -/
theorem encoded_txtlen {s : State} (h : s.Inv) : s.encoded.txtlen.toNat = (enc32 s.rawBytes).length := by
  have hfit : (enc32 s.rawBytes).length ≤ 416 := txt_fits s h
  exact ofNat_toNat_lt _ (by omega)

/-- The bytes of a good text fit BINLEN (`40_base32.md` R131). -/
theorem decoded_binlen {s : State} (h : s.Inv) {out : List Byte} (hout : dec32 s.text = .ok out) :
    (s.decoded out).binlen.toNat = out.length := by
  have hfit : out.length ≤ 260 := bin_fits s h out hout
  exact ofNat_toNat_lt _ (by omega)

/-- Settles O37: the text fits TXT, so TXT holds all of it. -/
theorem b32encEncodesBin : Obligations.B32encEncodesBin := by
  intro s hs
  have hlength : (enc32 s.rawBytes).length = 8 * ((s.binlen.toNat + 4) / 5) := by
    rw [enc32_length, State.rawBytes, State.bytes_length]
  obtain ⟨hbytes, hrest⟩ := readBack_of_writeBuffer (t := s.encoded) rfl rfl (txt_fits s hs)
  refine ⟨s.encoded, exec_b32enc s, ?_⟩
  rw [encoded_txtlen hs]
  exact ⟨hbytes, hlength, txt_fits s hs, rfl, rfl, rfl, hrest⟩

/-- Settles O38: the two outcomes of the decoder, the bytes of a good text fitting BIN. -/
theorem b32decDecodesTxt : Obligations.B32decDecodesTxt := by
  intro s hs
  cases hdec : dec32 s.text with
  | ok out =>
    obtain ⟨hbytes, hrest⟩ := readBack_of_writeBuffer (t := s.decoded out) rfl rfl (bin_fits s hs out hdec)
    refine ⟨s.decoded out, exec_b32dec_ok hdec, rfl, rfl, fun out' hout => ?_, fun info hinfo => ?_⟩
    · cases hdec.symm.trans hout
      rw [decoded_binlen hs hdec]
      exact ⟨hbytes, rfl, rfl, hrest⟩
    · cases hdec.symm.trans hinfo
  | error info =>
    refine ⟨s.decodeFailed info, exec_b32dec_error hdec, rfl, rfl, fun out hout => ?_, fun info' hinfo => ?_⟩
    · cases hdec.symm.trans hout
    · cases hdec.symm.trans hinfo
      rfl

/-- Settles O39: B32DEC finds in TXT the encoding of the secret, which decodes to it. -/
theorem b32decAfterB32encRestoresBin : Obligations.B32decAfterB32encRestoresBin := by
  intro s hs
  obtain ⟨t, ht, htext, _, _, _, _, htframe, _⟩ := b32encEncodesBin s hs
  obtain ⟨u, hu, _, _, hgood, _⟩ := b32decDecodesTxt t (inv_exec hs ht)
  have hdec : dec32 (t.bytes .txt t.txtlen.toNat) = .ok (s.bytes .bin s.binlen.toNat) := by
    rw [htext, decodeInvertsEncode]
  obtain ⟨hbytes, hbinlen, huframe, _⟩ := hgood _ hdec
  rw [State.bytes_length] at hbinlen
  have htkept : t.err = s.err ∧ t.errcode = s.errcode ∧ t.errinfo = s.errinfo := by
    rw [← htframe]; exact ⟨rfl, rfl, rfl⟩
  have hukept : u.err = t.err ∧ u.errcode = t.errcode ∧ u.errinfo = t.errinfo := by
    rw [← huframe]; exact ⟨rfl, rfl, rfl⟩
  obtain ⟨hterr, htcode, htinfo⟩ := htkept
  obtain ⟨huerr, hucode, huinfo⟩ := hukept
  exact ⟨t, u, ht, hu, BitVec.eq_of_toNat_eq hbinlen, hbytes, huerr.trans hterr, hucode.trans htcode,
    huinfo.trans htinfo⟩

end Sys2Proof.Machine
end

section
/-! PROOFS. The statements on ERASE of `41_erase.md`: which draws scrubbing takes, what an erasure overwrites and what it
leaves, and that after ERASE ALL the memory is a function of the draws. -/

namespace Sys2Proof.Machine

/-! ### Draws -/

/-- Draws equal to the old byte are discarded (`41_erase.md` R152). -/
theorem scrub_replicate_append {old r : Byte} (hr : r ≠ old) (k : Nat) (rest : List Byte) :
    scrub old (List.replicate k old ++ r :: rest) = some (r, rest) := by
  induction k with
  | zero => simp [scrub, hr]
  | succ k ih => simp [List.replicate_succ, scrub, ih]

theorem exists_replicate_of_scrub {old r : Byte} {draws rest : List Byte} (h : scrub old draws = some (r, rest)) :
    ∃ k, draws = List.replicate k old ++ r :: rest := by
  induction draws with
  | nil => cases h
  | cons d ds ih =>
    simp only [scrub] at h
    split at h
    · rename_i hd
      obtain ⟨k, hk⟩ := ih h
      exact ⟨k + 1, by rw [hk, hd]; rfl⟩
    · cases h
      exact ⟨0, rfl⟩

/-- Settles O40: the draws before the one taken are copies of the old byte. -/
theorem scrubTakesTheFirstDifferingDraw : Obligations.ScrubTakesTheFirstDifferingDraw := by
  intro old r draws rest
  constructor
  · intro h
    obtain ⟨k, hk⟩ := exists_replicate_of_scrub h
    exact ⟨k, hk, scrub_ne h⟩
  · rintro ⟨k, rfl, hr⟩
    exact scrub_replicate_append hr k rest

/-- Settles O43: byte by byte, each time by `scrubTakesTheFirstDifferingDraw`. -/
theorem drawsThatSuffice : Obligations.DrawsThatSuffice := by
  intro olds
  induction olds with
  | nil =>
    intro draws news left
    constructor
    · rintro ⟨⟩
      exact ⟨[], rfl, .nil, rfl⟩
    · rintro ⟨ks, _, hne, hdraws⟩
      cases hne
      simp [scrubAll, hdraws]
  | cons old olds ih =>
    intro draws news left
    rw [scrubAll_cons]
    constructor
    · rintro ⟨n, rest, ns, hn, hns, rfl⟩
      obtain ⟨k, rfl, hk⟩ := (scrubTakesTheFirstDifferingDraw ..).mp hn
      obtain ⟨ks, hlen, hne, rfl⟩ := (ih ..).mp hns
      exact ⟨k :: ks, by simp [hlen], .cons hk hne, by simp⟩
    · rintro ⟨_ | ⟨k, ks⟩, hlen, hne, hdraws⟩
      · cases hlen
      · obtain _ | @⟨_, n, _, ns, hk, hne⟩ := hne
        refine ⟨n, _, ns, (scrubTakesTheFirstDifferingDraw ..).mpr ⟨k, ?_, hk⟩,
          (ih ..).mpr ⟨ks, Nat.succ.inj hlen, hne, rfl⟩, rfl⟩
        simpa using hdraws

/-! ### What a list of erasures does -/

/-- A register is 0 after a list of erasures if one of them clears it. -/
theorem eq_ite_mem_cons {α : Type} [Zero α] {b c : Buffer} {bs : List Buffer} {p : Bool} {x y z : α}
    (hz : z = if c ∈ bs ∧ p = true then 0 else y) (hy : y = if b = c ∧ p = true then 0 else x) :
    z = if c ∈ b :: bs ∧ p = true then 0 else x := by
  subst hz hy
  by_cases hmem : c ∈ bs
  · cases p <;> simp [hmem]
  · simp [hmem, eq_comm]

/-- What ERASE does to some buffers (`41_erase.md` R153, R154). -/
structure EraseListEffect (sel : BitVec 4) (bs : List Buffer) (s t : State) : Prop where
  same : SameHost s t
  bytes : ∀ b ∈ bs, sel.getLsbD b.selBit = true → ∀ i, i < b.capacity → t.byte b i ≠ s.byte b i
  frame : ∀ a, (∀ b ∈ bs, sel.getLsbD b.selBit = true → ∀ i, i < b.capacity → a ≠ b.base + i) →
    t.readByte a = s.readByte a
  binlen : t.binlen = if .bin ∈ bs ∧ sel.getLsbD 0 = true then 0 else s.binlen
  txtlen : t.txtlen = if .txt ∈ bs ∧ sel.getLsbD 1 = true then 0 else s.txtlen
  diglen : t.diglen = if .digest ∈ bs ∧ sel.getLsbD 2 = true then 0 else s.diglen
  pwdlen : t.pwdlen = if .pwd ∈ bs ∧ sel.getLsbD 3 = true then 0 else s.pwdlen
  truncval : t.truncval = if .pwd ∈ bs ∧ sel.getLsbD 3 = true then 0 else s.truncval
  code : t.code = if .pwd ∈ bs ∧ sel.getLsbD 3 = true then 0 else s.code

theorem EraseListEffect.nil (sel : BitVec 4) (s : State) : EraseListEffect sel [] s s := by
  constructor <;> simp [SameHost.refl]

/-- One erasure, then those of other buffers: neither touches a byte of the other's. -/
theorem EraseListEffect.cons {sel : BitVec 4} {b : Buffer} {bs : List Buffer} {s u t : State} (hb : b ∉ bs)
    (h : EraseEffect sel b s u) (g : EraseListEffect sel bs u t) : EraseListEffect sel (b :: bs) s t where
  same := h.same.trans g.same
  bytes c hc hsel i hi := by
    rcases List.mem_cons.mp hc with rfl | hc
    · have hkept : t.byte c i = u.byte c i := g.frame _ fun d hd _ j hj hplace =>
        hb ((Buffer.place_inj hi hj hplace).1 ▸ hd)
      rw [hkept]
      exact h.bytes hsel i hi
    · have hkept : u.byte c i = s.byte c i := h.frame _ fun _ j hj hplace =>
        hb ((Buffer.place_inj hi hj hplace).1 ▸ hc)
      rw [← hkept]
      exact g.bytes c hc hsel i hi
  frame a ha := (g.frame a fun c hc => ha c (List.mem_cons_of_mem b hc)).trans (h.frame a (ha b List.mem_cons_self))
  binlen := eq_ite_mem_cons g.binlen h.binlen
  txtlen := eq_ite_mem_cons g.txtlen h.txtlen
  diglen := eq_ite_mem_cons g.diglen h.diglen
  pwdlen := eq_ite_mem_cons g.pwdlen h.pwdlen
  truncval := eq_ite_mem_cons g.truncval h.truncval
  code := eq_ite_mem_cons g.code h.code

/-- A list of erasures is its first and the others. -/
theorem eraseList_cons_eq_some {sel : BitVec 4} {b : Buffer} {bs : List Buffer} {s t : State} :
    eraseList sel (b :: bs) s = some t ↔ ∃ u, eraseIfSelected sel b s = some u ∧ eraseList sel bs u = some t := by
  rw [eraseList, List.foldlM_cons]
  exact Option.bind_eq_some_iff

theorem eraseList_effect {sel : BitVec 4} {bs : List Buffer} (hn : bs.Nodup) {s t : State}
    (h : eraseList sel bs s = some t) : EraseListEffect sel bs s t := by
  induction bs generalizing s with
  | nil => cases h; exact .nil sel _
  | cons b bs ih =>
    obtain ⟨hb, hn⟩ := List.nodup_cons.mp hn
    obtain ⟨u, hu, ht⟩ := eraseList_cons_eq_some.mp h
    exact .cons hb (eraseIf_erased hu) (ih hn ht)

theorem Buffer.nodup_all : Buffer.all.Nodup := by decide

/-- A state that agrees on what no rule writes is the other but for what the rules write. -/
theorem SameHost.frame {s t : State} (h : SameHost s t) :
    { t with binlen := s.binlen, txtlen := s.txtlen, diglen := s.diglen, pwdlen := s.pwdlen, truncval := s.truncval,
             code := s.code, mem := s.mem, draws := s.draws, busy := s.busy, done := s.done } = s := by
  cases h
  cases s
  simp_all

/-! ### The command -/

theorem exec_erase_of_some {sel : BitVec 4} {s t : State} (h : eraseList sel Buffer.all s = some t) :
    exec (.erase sel) s = .next t.finish := by
  rw [← eraseSelected_eq] at h
  simp only [exec, execErase, h, complete_written]

theorem exec_erase_of_none {sel : BitVec 4} {s : State} (h : eraseList sel Buffer.all s = none) :
    exec (.erase sel) s = .next s := by
  rw [← eraseSelected_eq] at h
  simp only [exec, execErase, h]

/-- Settles O41: the erasures of the four buffers, one after another. -/
theorem eraseOverwritesSelected : Obligations.EraseOverwritesSelected := by
  intro sel s news left hdraws
  obtain ⟨t, ht, hnews, hleft⟩ := eraseList_news Buffer.nodup_all hdraws
  have he := eraseList_effect Buffer.nodup_all ht
  refine ⟨t.finish, exec_erase_of_some ht, rfl, rfl, hnews, fun b => he.bytes b b.mem_all, ?_, ?_, ?_, ?_, ?_, ?_,
    fun a ha => he.frame a fun b _ => ha b, he.same.frame, hleft⟩
  · simpa [Buffer.mem_all] using he.binlen
  · simpa [Buffer.mem_all] using he.txtlen
  · simpa [Buffer.mem_all] using he.diglen
  · simpa [Buffer.mem_all] using he.pwdlen
  · simpa [Buffer.mem_all] using he.truncval
  · simpa [Buffer.mem_all] using he.code

/-- Settles O42: where the draws do not suffice for all the bytes, the erasures come to nothing (`eraseList_isSome`). -/
theorem eraseWaitsForDraws : Obligations.EraseWaitsForDraws := by
  intro sel s hdraws
  have hsome := eraseList_isSome sel Buffer.all Buffer.nodup_all s
  rw [erasedBytes, hdraws] at hsome
  exact exec_erase_of_none (Option.isNone_iff_eq_none.mp (by simpa using hsome))

/-- Settles O44: no bit of the mask is set, so each of the four selections leaves the state. -/
theorem eraseNoneOnlyCompletes : Obligations.EraseNoneOnlyCompletes := fun s =>
  have hnone : eraseList 0 Buffer.all s = some s := rfl
  exec_erase_of_some hnone

/-! ### The memory after an erasure -/

/-- The memory form of the invariants: offsets strictly rising, each of them a buffer's (log entry 4). -/
structure Memory.Canonical (m : Memory) : Prop where
  rising : m.wf = true
  isMapped : ∀ c ∈ m, mapped c.1 = true

/-- Every byte of a buffer has been written since reset. -/
def State.Written (s : State) (b : Buffer) : Prop := ∀ i, i < b.capacity → (s.mem.lookup (b.base + i)).isSome = true

/-- An erasure stores some bytes at the buffer's front, over its whole capacity if SEL selects it. -/
theorem eraseIf_mem {sel : BitVec 4} {b : Buffer} {s t : State} (h : eraseIfSelected sel b s = some t) :
    ∃ bs, t.mem = (s.writeBuffer b bs).mem ∧ (sel.getLsbD b.selBit = true → bs.length = b.capacity) := by
  unfold eraseIfSelected at h
  split at h
  · unfold eraseBuffer at h
    split at h
    · cases h
    · rename_i news left hnews
      cases h
      exact ⟨news, by simp [State.writeBuffer], fun _ => by simpa using scrubAll_length hnews⟩
  · rename_i hsel
    cases h
    exact ⟨[], by simp [State.writeBuffer, Memory.writeBytes], fun h => absurd h hsel⟩

theorem eraseIf_canonical {sel : BitVec 4} {b : Buffer} {s t : State} (h : eraseIfSelected sel b s = some t)
    (hs : s.mem.Canonical) : t.mem.Canonical := by
  obtain ⟨bs, hmem, _⟩ := eraseIf_mem h
  rw [hmem]
  exact ⟨Memory.wf_writeBytes _ _ _ hs.rising, writeBuffer_mapped hs.isMapped b bs⟩

/-- What has been written stays so. -/
theorem eraseIf_keeps_written {sel : BitVec 4} {b c : Buffer} {s t : State} (h : eraseIfSelected sel b s = some t)
    (hs : s.Written c) : t.Written c := by
  intro i hi
  obtain ⟨bs, hmem, _⟩ := eraseIf_mem h
  rw [hmem, State.writeBuffer, Memory.lookup_writeBytes]
  split
  · simp [hs i hi]
  · exact hs i hi

theorem eraseIf_written {sel : BitVec 4} {b : Buffer} {s t : State} (h : eraseIfSelected sel b s = some t)
    (hsel : sel.getLsbD b.selBit = true) : t.Written b := by
  intro i hi
  obtain ⟨bs, hmem, hlen⟩ := eraseIf_mem h
  rw [hmem, State.writeBuffer, Memory.lookup_writeBytes_inside _ _ _ _ (by simp [hlen hsel, hi])]
  rfl

/-- What every erasure keeps, a list of them keeps. -/
theorem eraseList_keeps {P : State → Prop} {sel : BitVec 4}
    (hP : ∀ {b : Buffer} {s t : State}, eraseIfSelected sel b s = some t → P s → P t)
    {bs : List Buffer} {s t : State} (h : eraseList sel bs s = some t) (hs : P s) : P t := by
  induction bs generalizing s with
  | nil => cases h; exact hs
  | cons b bs ih =>
    obtain ⟨u, hu, ht⟩ := eraseList_cons_eq_some.mp h
    exact ih ht (hP hu hs)

theorem eraseList_written {sel : BitVec 4} {bs : List Buffer} {s t : State} (h : eraseList sel bs s = some t)
    {b : Buffer} (hb : b ∈ bs) (hsel : sel.getLsbD b.selBit = true) : t.Written b := by
  induction bs generalizing s with
  | nil => cases hb
  | cons c bs ih =>
    obtain ⟨u, hu, ht⟩ := eraseList_cons_eq_some.mp h
    rcases List.mem_cons.mp hb with rfl | hb
    · exact eraseList_keeps eraseIf_keeps_written ht (eraseIf_written hu hsel)
    · exact ih ht hb

/-! ### What a canonical memory lists -/

/-- What a memory lists at each buffer byte, buffer by buffer. -/
def Memory.contents (m : Memory) : List (Option Byte) :=
  Buffer.all.flatMap fun b => (List.range b.capacity).map fun i => m.lookup (b.base + i)

theorem State.Written.lookup_eq {s : State} {b : Buffer} (h : s.Written b) {i : Nat} (hi : i < b.capacity) :
    s.mem.lookup (b.base + i) = some (s.byte b i) := by
  obtain ⟨x, hx⟩ := Option.isSome_iff_exists.mp (h i hi)
  simp only [State.byte, State.readByte, hx]

/-- Where everything is written, the memory lists what the host reads. -/
theorem contents_of_written {s : State} (h : ∀ b, s.Written b) :
    s.mem.contents = (Buffer.all.flatMap fun b => s.bytes b b.capacity).map some := by
  rw [Memory.contents, List.map_flatMap]
  refine List.flatMap_congr fun b _ => ?_
  rw [State.bytes, List.map_map]
  exact List.map_congr_left fun i hi => (h b).lookup_eq (List.mem_range.mp hi)

theorem Memory.lookup_mem_contents (m : Memory) (b : Buffer) {i : Nat} (hi : i < b.capacity) :
    m.lookup (b.base + i) ∈ m.contents :=
  List.mem_flatMap.mpr ⟨b, b.mem_all, List.mem_map.mpr ⟨i, List.mem_range.mpr hi, rfl⟩⟩

/-- Equal concatenations of pieces of equal lengths have equal pieces. -/
theorem eq_of_flatMap_eq {α β : Type} {f g : α → List β} (hlen : ∀ a, (f a).length = (g a).length) {l : List α}
    (h : l.flatMap f = l.flatMap g) : ∀ a ∈ l, f a = g a := by
  induction l with
  | nil => simp
  | cons a l ih =>
    obtain ⟨hhead, htail⟩ := List.append_inj (by simpa using h) (hlen a)
    simpa [hhead] using ih htail

theorem Memory.lookup_eq_of_contents_eq {m n : Memory} (h : m.contents = n.contents) (b : Buffer) {i : Nat}
    (hi : i < b.capacity) : m.lookup (b.base + i) = n.lookup (b.base + i) :=
  List.map_inj_left.mp (eq_of_flatMap_eq (by simp) h b b.mem_all) i (List.mem_range.mpr hi)

theorem Memory.mem_of_lookup {m : Memory} {a : Nat} {x : Byte} (h : m.lookup a = some x) : (a, x) ∈ m := by
  induction m with
  | nil => cases h
  | cons c m ih =>
    simp only [Memory.lookup] at h
    split at h
    · rename_i hc
      cases h
      simp [← hc]
    · exact List.mem_cons_of_mem c (ih h)

theorem Memory.Canonical.lookup_unmapped {m : Memory} (hm : m.Canonical) {a : Nat} (ha : ¬ mapped a = true) :
    m.lookup a = none :=
  Option.eq_none_iff_forall_ne_some.mpr fun _ hx => ha (hm.isMapped _ (Memory.mem_of_lookup hx))

theorem exists_place_of_mapped {a : Nat} (h : mapped a = true) :
    ∃ b : Buffer, ∃ i, i < b.capacity ∧ a = b.base + i := by
  obtain ⟨b, _, hb⟩ := List.any_eq_true.mp h
  rw [holds_iff] at hb
  exact ⟨b, a - b.base, by omega, by omega⟩

/-- A canonical memory is determined by what it lists at the buffer bytes. -/
theorem Memory.Canonical.ext {m n : Memory} (hm : m.Canonical) (hn : n.Canonical) (h : m.contents = n.contents) :
    m = n := by
  refine Memory.ext_of_wf hm.rising hn.rising fun a => ?_
  by_cases ha : mapped a = true
  · obtain ⟨b, i, hi, rfl⟩ := exists_place_of_mapped ha
    exact Memory.lookup_eq_of_contents_eq h b hi
  · rw [hm.lookup_unmapped ha, hn.lookup_unmapped ha]

/-! ### ERASE ALL -/

/-- The state with everything that ERASE ALL writes: a memory, the draws left, and the released registers. -/
def State.allErased (m : Memory) (left : List Byte) (s : State) : State :=
  { s with mem := m, draws := left, binlen := 0, txtlen := 0, diglen := 0, pwdlen := 0, truncval := 0, code := 0 }

/-- After all four erasures nothing else has changed. -/
theorem eq_allErased {s t : State} (h : EraseListEffect 0b1111 Buffer.all s t) : t = s.allErased t.mem t.draws := by
  obtain ⟨hsame, _, _, hbin, htxt, hdigest, hpwd, htruncval, hcode⟩ := h
  simp only [Buffer.mem_all, true_and] at hbin htxt hdigest hpwd htruncval hcode
  cases hsame
  cases t
  simp_all [State.allErased]

theorem bufferBytes_length (s : State) : (Buffer.all.flatMap fun b => s.bytes b b.capacity).length = 750 := by
  simp only [List.length_flatMap, State.bytes_length]
  rfl

/-- ERASE ALL, given draws that differ from the old bytes one by one, puts the draws in their place. -/
theorem exec_erase_all {s : State} (hs : s.mem.Canonical)
    (hd : List.Forall₂ (fun o d => d ≠ o) (Buffer.all.flatMap fun b => s.bytes b b.capacity) (s.draws.take 750)) :
    ∃ m, exec (.erase 0b1111) s = .next (s.allErased m (s.draws.drop 750)).finish ∧ m.Canonical ∧
      m.contents = (s.draws.take 750).map some := by
  have hscrub := scrubAll_exact (Buffer.all.flatMap fun b => s.bytes b b.capacity) s.draws (by rwa [bufferBytes_length])
  rw [bufferBytes_length] at hscrub
  obtain ⟨t, ht, hnews, hleft⟩ := eraseList_news (sel := 0b1111) Buffer.nodup_all hscrub
  have hwritten : ∀ b, t.Written b := fun b => eraseList_written ht b.mem_all (by cases b <;> decide)
  refine ⟨t.mem, ?_, eraseList_keeps (P := fun u => u.mem.Canonical) eraseIf_canonical ht hs, ?_⟩
  · rw [← hleft, ← eq_allErased (eraseList_effect Buffer.nodup_all ht)]
    exact exec_erase_of_some ht
  · rw [contents_of_written hwritten, ← hnews]
    rfl

/-- Settles O45: both memories are canonical and list the draws, so they are one memory. -/
theorem eraseAllForgetsTheSecret : Obligations.EraseAllForgetsTheSecret := by
  intro s u hsw huw hsm hum hagree hsd hud
  have hdraws : u.draws = s.draws := by rw [← hagree]
  obtain ⟨m, hs, hm, hmc⟩ := exec_erase_all ⟨hsw, hsm⟩ hsd
  obtain ⟨n, hu, hn, hnc⟩ := exec_erase_all ⟨huw, hum⟩ (hdraws ▸ hud)
  have hmem : n = m := hn.ext hm (by rw [hnc, hmc, hdraws])
  refine ⟨_, hs, ?_, fun b i hi => ?_⟩
  · rw [hu, hmem, hdraws, ← hagree]
    rfl
  · have hlisted := m.lookup_mem_contents b hi
    rw [hmc] at hlisted
    obtain ⟨x, _, hx⟩ := List.mem_map.mp hlisted
    exact ⟨x, hx.symm⟩

end Sys2Proof.Machine
end

section
/-! PROOFS. The statements on TRUNC of `42_truncate.md`: dynamic truncation as arithmetic on the digest's bytes, the
decimal rendering of a value, and what the command leaves when there is a digest and when there is none. -/

namespace Sys2Proof.Machine

/-! ### Dynamic truncation -/

/-- The offset is a low nibble, so the four bytes from it lie below the last byte of every legal digest
(`42_truncate.md` R170). -/
theorem truncOffset_add_three_lt (d : List Byte) (h : 20 ≤ d.length) : truncOffset d + 3 < d.length - 1 := by
  have hnibble : truncOffset d < 16 := Nat.mod_lt _ (by decide)
  omega

/-- The truncation of a digest whose four bytes lie inside it (`42_truncate.md` R170). -/
theorem trunc_toNat (d : List Byte) (h : truncOffset d + 3 < d.length) :
    (trunc d).toNat =
      ((d.getD (truncOffset d) 0).toNat * 2 ^ 24 + (d.getD (truncOffset d + 1) 0).toNat * 2 ^ 16
        + (d.getD (truncOffset d + 2) 0).toNat * 2 ^ 8 + (d.getD (truncOffset d + 3) 0).toNat) % 2 ^ 31 := by
  rw [trunc, BitVec.toNat_ofNat, slice4 d _ h, be4]

/-- Settles O46: a digest of at least 20 bytes holds the four bytes at every offset. -/
theorem truncReadsFourBytesAtTheOffset : Obligations.TruncReadsFourBytesAtTheOffset := by
  rintro d n rfl hn
  have hlegal : 20 ≤ d.length := by
    simp only [List.mem_cons, List.not_mem_nil, or_false] at hn
    omega
  have hinside := truncOffset_add_three_lt d hlegal
  exact ⟨truncOffset d, rfl, hinside, trunc_toNat d (by omega)⟩

/-! ### Rendering -/

/-- Settles O47: the digits spell their number mod `10^N`, and the code is below that already. -/
theorem renderSpellsTheCode : Obligations.RenderSpellsTheCode := by
  intro value n
  refine ⟨rfl, renderDigits_length _ _, renderDigits_range _ _, ?_⟩
  rw [renderDigits_value, renderCode, Nat.mod_mod, Nat.zero_mul, Nat.zero_add]

/-! ### TRUNC -/

/-- What a state reads after a password was stored and the command completed (`42_truncate.md` R172,
`44_hmac_hotp.md` R240). -/
theorem storePassword_finish_readBack {s : State} (h : s.Inv) (v : BitVec 31) :
    (s.storePassword v).finish.bytes .pwd s.digits.toNat =
      renderDigits (renderCode v.toNat s.digits.toNat) s.digits.toNat ∧
    ∀ a, (∀ i, i < s.digits.toNat → a ≠ Buffer.pwd.base + i) →
      (s.storePassword v).finish.readByte a = s.readByte a := by
  have hread := readBack_of_writeBuffer (t := (s.storePassword v).finish) (b := .pwd) rfl rfl
    (digits_fits s h (renderCode v.toNat s.digits.toNat))
  rwa [renderDigits_length] at hread

theorem exec_trunc_ok {s : State} (h : s.diglen ≠ 0) :
    exec .trunc s = .next (s.storePassword (trunc s.digestBytes)).finish := by
  rw [exec, execTrunc, truncResult, if_neg h, complete_written]

theorem exec_trunc_error {s : State} (h : s.diglen = 0) :
    exec .trunc s = .next (s.record .invalidLength 0).finish := by
  rw [exec, execTrunc, truncResult, if_pos h, complete_raised, h]

/-- Settles O48: the rendering fits PWD and the code its register, so both hold all of it. -/
theorem truncRendersTheDigest : Obligations.TruncRendersTheDigest := by
  intro s hs
  refine ⟨fun hdigest => ?_, fun hnone => exec_trunc_error hnone⟩
  have hcode : (s.storePassword (trunc s.digestBytes)).finish.code.toNat =
      renderCode (trunc s.digestBytes).toNat s.digits.toNat := code_toNat _ _
  obtain ⟨hpwd, hrest⟩ := storePassword_finish_readBack hs (trunc s.digestBytes)
  refine ⟨_, exec_trunc_ok hdigest, rfl, hcode, rfl, ?_, rfl, rfl, rfl, hrest⟩
  rw [hcode, hpwd]

end Sys2Proof.Machine
end

section
/-! PROOFS. The statements on the hash functions of `43_sha.md`: padding, the message schedules, compression round by
round, the chaining of the blocks, the tables of round constants and the digest lengths. -/

namespace Sys2Proof.Machine

/-! ### Padding -/

/-- No fewer zeros than those of `padMessage` take `n` bytes up to whole blocks (`43_sha.md` R191). -/
theorem padZeros_le {n B j : Nat} (h : (n + j) % B = 0) : (B - n % B) % B ≤ j := by
  by_contra! hfewer
  have hroom : n % B + j < B := by
    have hzeros := Nat.mod_le (B - n % B) B
    omega
  have hsum : n % B + j = 0 := by
    rw [← h, Nat.add_mod n j, Nat.mod_eq_of_lt (show j < B by omega), Nat.mod_eq_of_lt hroom]
  rw [show n % B = 0 by omega, Nat.sub_zero, Nat.mod_self] at hfewer
  omega

/-- Settles O49: the model's zeros fill the block (`padMessage_blocks`) and are the fewest that do (`padZeros_le`). -/
theorem paddingFillsTheLastBlock : Obligations.PaddingFillsTheLastBlock := by
  intro m B lb hshape
  have hB : 0 < B := by omega
  have hwhole := padMessage_blocks m (lb := lb) hB
  have hlen : (padMessage m B lb).length =
      m.length + 1 + (B - (m.length + 1 + lb) % B) % B + lb := by
    simp [padMessage]
    omega
  refine ⟨_, rfl, hlen ▸ hwhole, fun j hj => ?_, hwhole, ?_⟩
  · rw [Nat.add_right_comm] at hj
    exact padZeros_le hj
  · exact Nat.le_of_dvd (by omega) (Nat.dvd_of_mod_eq_zero hwhole)

/-! ### Message schedules -/

/-- The message schedule of a block in the order of its words: the block's sixteen and `k` more. -/
def messageSchedule {w : Nat} (next : List (BitVec w) → BitVec w) (k : Nat) (block : List Byte) : List (BitVec w) :=
  (extendSchedule next k (blockWords w block).reverse).reverse

/-- `W[t]` of a block. -/
def scheduleWord {w : Nat} (next : List (BitVec w) → BitVec w) (k : Nat) (block : List Byte) (t : Nat) : BitVec w :=
  (messageSchedule next k block).getD t 0

section
variable {w : Nat} (hw : 0 < w / 8) {block : List Byte} (hblock : block.length = 16 * (w / 8))
include hw hblock

theorem messageSchedule_length (next : List (BitVec w) → BitVec w) (k : Nat) :
    (messageSchedule next k block).length = 16 + k :=
  (sched_gen next k _ (sched_words hw block hblock).1).1

theorem scheduleWord_block (next : List (BitVec w) → BitVec w) (k t : Nat) (ht : t < 16) :
    scheduleWord next k block t = BitVec.ofNat w (be (slice block (w / 8 * t) (w / 8))) := by
  obtain ⟨hsixteen, hword⟩ := sched_words hw block hblock
  obtain ⟨-, hold, -⟩ := sched_gen next k _ hsixteen
  exact (hold t ht).trans (hword t ht)

/-- A later word is `next` of a list that holds, newest first, the sixteen words before it. -/
theorem scheduleWord_next (next : List (BitVec w) → BitVec w) (k t : Nat) (h16 : 16 ≤ t) (ht : t < 16 + k) :
    ∃ older, scheduleWord next k block t = next older ∧
      ∀ j, j < 16 → older.getD j 0 = scheduleWord next k block (t - (j + 1)) := by
  obtain ⟨-, -, hnew⟩ := sched_gen next k _ (sched_words hw block hblock).1
  obtain ⟨older, hword, holder⟩ := hnew t h16 ht
  exact ⟨older, hword, fun j hj => holder (j + 1) (by omega) (by omega)⟩

/-- The recurrence of SHA-256 and SHA-512 (`43_sha.md` R198, R202). -/
theorem scheduleWord_sha2Next (p : Sha2 w) (k t : Nat) (h16 : 16 ≤ t) (ht : t < 16 + k) :
    let W := scheduleWord (sha2Next p) k block
    W t = p.ssig1 (W (t - 2)) + W (t - 7) + p.ssig0 (W (t - 15)) + W (t - 16) := by
  intro W
  obtain ⟨older, hword, holder⟩ := scheduleWord_next hw hblock (sha2Next p) k t h16 ht
  rw [show W t = _ from hword, sha2Next, holder 1 (by decide), holder 6 (by decide), holder 14 (by decide),
    holder 15 (by decide)]

end

/-- The recurrence of SHA-1 (`43_sha.md` R194). -/
theorem scheduleWord_sha1Next {block : List Byte} (hblock : block.length = 64) (k t : Nat) (h16 : 16 ≤ t)
    (ht : t < 16 + k) :
    let W := scheduleWord sha1Next k block
    W t = rotl (W (t - 3) ^^^ W (t - 8) ^^^ W (t - 14) ^^^ W (t - 16)) 1 := by
  intro W
  obtain ⟨older, hword, holder⟩ := scheduleWord_next (by decide) hblock sha1Next k t h16 ht
  rw [show W t = _ from hword, sha1Next, holder 2 (by decide), holder 7 (by decide), holder 13 (by decide),
    holder 15 (by decide)]

/-- Settles O51: the schedules are `messageSchedule`s, whose recurrences are those of `sha1Next` and `sha2Next`. -/
theorem scheduleRecurrences : Obligations.ScheduleRecurrences := by
  refine ⟨fun block hblock => ?_, fun block hblock => ?_, fun block hblock => ?_⟩
  · exact ⟨messageSchedule sha1Next 64 block, rfl, messageSchedule_length (by decide) hblock _ _,
      scheduleWord_block (by decide) hblock _ _, scheduleWord_sha1Next hblock 64⟩
  · exact ⟨messageSchedule (sha2Next sha256Params) 48 block, rfl, messageSchedule_length (by decide) hblock _ _,
      scheduleWord_block (by decide) hblock _ _, scheduleWord_sha2Next (by decide) hblock sha256Params 48⟩
  · exact ⟨messageSchedule (sha2Next sha512Params) 64 block, rfl, messageSchedule_length (by decide) hblock _ _,
      scheduleWord_block (by decide) hblock _ _, scheduleWord_sha2Next (by decide) hblock sha512Params 64⟩

/-! ### Compression -/

/-- The 80 rounds of SHA-1's compression as the sequence of the working variables (`43_sha.md` R194). -/
theorem sha1Compress_rounds (h : Chain5) {M : List Byte} (hM : M.length = 64) : ∃ v : Nat → Chain5,
    v 0 = h ∧ (∀ t, t < 80 → v (t + 1) = sha1Round (v t) (scheduleWord sha1Next 64 M t, t)) ∧
    sha1Compress h M =
      ⟨h.a + (v 80).a, h.b + (v 80).b, h.c + (v 80).c, h.d + (v 80).d, h.e + (v 80).e⟩ := by
  have hlen : (messageSchedule sha1Next 64 M).length = 80 := messageSchedule_length (by decide) hM _ _
  obtain ⟨v, hfirst, hround, hlast⟩ := foldl_trace sha1Round (messageSchedule sha1Next 64 M).zipIdx h
  rw [List.length_zipIdx, hlen] at hlast
  refine ⟨v, hfirst, fun t ht => ?_, by rw [hlast]; rfl⟩
  rw [hround t (by rwa [List.length_zipIdx, hlen]), List.getElem_zipIdx, Nat.zero_add, scheduleWord,
    List.getD_eq_getElem _ _ (hlen ▸ ht)]

/-- The rounds of SHA-256's and SHA-512's compression as the sequence of the working variables, one for each constant
(`43_sha.md` R198, R202). -/
theorem sha2Compress_rounds {w : Nat} (hw : 0 < w / 8) (p : Sha2 w) {k : Nat} (hk : p.k.length = 16 + k) (H : Chain8 w)
    {M : List Byte} (hM : M.length = 16 * (w / 8)) : ∃ v : Nat → Chain8 w,
    v 0 = H ∧
    (∀ t, t < 16 + k →
      v (t + 1) = sha2Round p (v t) (p.k.getD t 0, scheduleWord (sha2Next p) k M t)) ∧
    sha2Compress p H M =
      ⟨H.a + (v (16 + k)).a, H.b + (v (16 + k)).b, H.c + (v (16 + k)).c, H.d + (v (16 + k)).d,
       H.e + (v (16 + k)).e, H.f + (v (16 + k)).f, H.g + (v (16 + k)).g, H.h + (v (16 + k)).h⟩ := by
  have hlen := messageSchedule_length hw hM (sha2Next p) k
  have hrounds : (p.k.zip (messageSchedule (sha2Next p) k M)).length = 16 + k := by
    rw [List.length_zip, hk, hlen, Nat.min_self]
  obtain ⟨v, hfirst, hround, hlast⟩ := foldl_trace (sha2Round p) (p.k.zip (messageSchedule (sha2Next p) k M)) H
  rw [hrounds] at hlast
  refine ⟨v, hfirst, fun t ht => ?_, ?_⟩
  · rw [hround t (hrounds ▸ ht), List.getElem_zip, List.getD_eq_getElem _ _ (hk ▸ ht), scheduleWord,
      List.getD_eq_getElem _ _ (hlen ▸ ht)]
  · rw [hlast, sha2Compress, hk, Nat.add_sub_cancel_left]
    rfl

/-- A round of SHA-1, its rotations as the library's (`43_sha.md` R194). -/
theorem sha1Round_mk (a b c d e x : Word) (t : Nat) :
    sha1Round ⟨a, b, c, d, e⟩ (x, t) =
      ⟨a.rotateLeft 5 + sha1F t b c d + e + sha1K t + x, a, b.rotateLeft 30, c, d⟩ := by
  rw [sha1Round, rotl_eq _ _ (by decide), rotl_eq _ _ (by decide)]

/-- What compression by `p` over `n` rounds is (`43_sha.md` R198, R202), the functions and the constants those of `p`:
the schedule words `W` and the working variables `v` of a block `M` that begins with the chaining value `H`. -/
structure Sha2.Compression {w : Nat} (p : Sha2 w) (n : Nat) (H : Chain8 w) (M : List Byte) (W : Nat → BitVec w)
    (v : Nat → Chain8 w) : Prop where
  blockWord : ∀ t, t < 16 → W t = BitVec.ofNat w (be (slice M (w / 8 * t) (w / 8)))
  laterWord : ∀ t, 16 ≤ t → t < n → W t = p.ssig1 (W (t - 2)) + W (t - 7) + p.ssig0 (W (t - 15)) + W (t - 16)
  first : v 0 = H
  round : ∀ t, t < n → ∀ a b c d e f g h T1 T2 : BitVec w, v t = ⟨a, b, c, d, e, f, g, h⟩ →
    T1 = h + p.bsig1 e + ((e &&& f) ^^^ (~~~e &&& g)) + p.k.getD t 0 + W t →
    T2 = p.bsig0 a + ((a &&& b) ^^^ (a &&& c) ^^^ (b &&& c)) →
    v (t + 1) = ⟨T1 + T2, a, b, c, d + T1, e, f, g⟩
  last : sha2Compress p H M =
    ⟨H.a + (v n).a, H.b + (v n).b, H.c + (v n).c, H.d + (v n).d, H.e + (v n).e, H.f + (v n).f, H.g + (v n).g,
     H.h + (v n).h⟩

theorem Sha2.exists_compression {w : Nat} (hw : 0 < w / 8) (p : Sha2 w) {k : Nat} (hk : p.k.length = 16 + k)
    (H : Chain8 w) {M : List Byte} (hM : M.length = 16 * (w / 8)) : ∃ W v, p.Compression (16 + k) H M W v := by
  obtain ⟨v, hfirst, hround, hlast⟩ := sha2Compress_rounds hw p hk H hM
  refine ⟨scheduleWord (sha2Next p) k M, v,
    scheduleWord_block hw hM (sha2Next p) k, scheduleWord_sha2Next hw hM p k, hfirst, ?_, hlast⟩
  rintro t ht a b c d e f g h _ _ hv rfl rfl
  rw [hround t ht, hv]
  rfl

theorem sha256Params_k : sha256Params.k = k256 := rfl

theorem sha512Params_k : sha512Params.k = k512 := rfl

/-- The functions of SHA-256, their rotations as the library's (`43_sha.md` R197). -/
theorem sha256Params_sigma (x : Word) :
    sha256Params.bsig0 x = x.rotateRight 2 ^^^ x.rotateRight 13 ^^^ x.rotateRight 22 ∧
    sha256Params.bsig1 x = x.rotateRight 6 ^^^ x.rotateRight 11 ^^^ x.rotateRight 25 ∧
    sha256Params.ssig0 x = x.rotateRight 7 ^^^ x.rotateRight 18 ^^^ (x >>> 3) ∧
    sha256Params.ssig1 x = x.rotateRight 17 ^^^ x.rotateRight 19 ^^^ (x >>> 10) := by
  simp only [sha256Params, rotr_eq, Nat.reduceLT, and_self]

/-- The functions of SHA-512, their rotations as the library's (`43_sha.md` R201). -/
theorem sha512Params_sigma (x : DWord) :
    sha512Params.bsig0 x = x.rotateRight 28 ^^^ x.rotateRight 34 ^^^ x.rotateRight 39 ∧
    sha512Params.bsig1 x = x.rotateRight 14 ^^^ x.rotateRight 18 ^^^ x.rotateRight 41 ∧
    sha512Params.ssig0 x = x.rotateRight 1 ^^^ x.rotateRight 8 ^^^ (x >>> 7) ∧
    sha512Params.ssig1 x = x.rotateRight 19 ^^^ x.rotateRight 61 ^^^ (x >>> 6) := by
  simp only [sha512Params, rotr_eq, Nat.reduceLT, and_self]

/-- Settles O52: the schedule's words and the fold's states are the W and the v of each function, the recurrence and
the round written out with the library's rotations. -/
theorem compressionRunsItsRounds : Obligations.CompressionRunsItsRounds := by
  refine ⟨fun h M hM => ?_, fun H M hM => ?_, fun H M hM => ?_⟩
  · obtain ⟨v, hfirst, hround, hlast⟩ := sha1Compress_rounds h hM
    refine ⟨scheduleWord sha1Next 64 M, v,
      scheduleWord_block (by decide) hM sha1Next 64, fun t h16 ht => ?_, hfirst, ?_, hlast⟩
    · exact (scheduleWord_sha1Next hM 64 t h16 ht).trans (rotl_eq _ _ (by decide))
    · intro t ht a b c d e hv
      rw [hround t ht, hv, sha1Round_mk]
      rfl
  · obtain ⟨W, v, hrun⟩ := Sha2.exists_compression (by decide) sha256Params (k := 48) rfl H hM
    refine ⟨W, v, hrun.blockWord, ?_, hrun.first, ?_, hrun.last⟩
    · simpa only [sha256Params_sigma] using hrun.laterWord
    · simpa only [sha256Params_sigma, sha256Params_k] using hrun.round
  · obtain ⟨W, v, hrun⟩ := Sha2.exists_compression (by decide) sha512Params (k := 64) rfl H hM
    refine ⟨W, v, hrun.blockWord, ?_, hrun.first, ?_, hrun.last⟩
    · simpa only [sha512Params_sigma] using hrun.laterWord
    · simpa only [sha512Params_sigma, sha512Params_k] using hrun.round

/-! ### Chaining and the round constants -/

/-- The digest of SHA-256 and SHA-512 as the sequence of the chaining values (`43_sha.md` R199, R203). -/
theorem sha2Digest_chains {w : Nat} (p : Sha2 w) {B : Nat} (hB : 0 < B) (padded : List Byte)
    (hwhole : padded.length % B = 0) : ∃ H : Nat → Chain8 w, H 0 = p.init ∧
    (∀ j, j < padded.length / B → H (j + 1) = sha2Compress p (H j) (slice padded (B * j) B)) ∧
    ∀ h, h = H (padded.length / B) → sha2Digest p B padded =
      [h.a, h.b, h.c, h.d, h.e, h.f, h.g, h.h].flatMap fun x => beBytes (w / 8) x.toNat := by
  obtain ⟨H, hfirst, hnext, hlast⟩ := foldl_chunks_trace (sha2Compress p) p.init hB padded hwhole
  refine ⟨H, hfirst, hnext, ?_⟩
  rintro _ rfl
  rw [hlast]
  rfl

/-- The digest of SHA-1 as the sequence of the chaining values (`43_sha.md` R195). -/
theorem sha1_chains (m : List Byte) : ∃ H : Nat → Chain5, H 0 = sha1Init ∧
    (∀ j, j < (padMessage m 64 8).length / 64 →
      H (j + 1) = sha1Compress (H j) (slice (padMessage m 64 8) (64 * j) 64)) ∧
    ∀ h, h = H ((padMessage m 64 8).length / 64) →
      sha1 m = [h.a, h.b, h.c, h.d, h.e].flatMap fun x => beBytes 4 x.toNat := by
  obtain ⟨H, hfirst, hnext, hlast⟩ :=
    foldl_chunks_trace sha1Compress sha1Init (by decide) _ (padMessage_blocks m (B := 64) (lb := 8) (by decide))
  refine ⟨H, hfirst, hnext, ?_⟩
  rintro _ rfl
  rw [hlast]
  rfl

/-- The first 80 primes, 2 .. 409 (`43_sha.md` R200). -/
def firstPrimes : List Nat :=
  [2, 3, 5, 7, 11, 13, 17, 19, 23, 29, 31, 37, 41, 43, 47, 53, 59, 61, 67, 71,
   73, 79, 83, 89, 97, 101, 103, 107, 109, 113, 127, 131, 137, 139, 149, 151, 157, 163, 167, 173,
   179, 181, 191, 193, 197, 199, 211, 223, 227, 229, 233, 239, 241, 251, 257, 263, 269, 271, 277, 281,
   283, 293, 307, 311, 313, 317, 331, 337, 347, 349, 353, 359, 367, 373, 379, 383, 389, 397, 401, 409]

/-- A number below 21 squared without a proper divisor below 21 has no proper divisor. -/
theorem noProperDivisor_iff_below_21 {p : Nat} (hp : p < 21 ^ 2) :
    (2 ≤ p ∧ ∀ d, d < p → 2 ≤ d → p % d ≠ 0) ↔ (2 ≤ p ∧ ∀ d, d < 21 → d < p → 2 ≤ d → p % d ≠ 0) := by
  refine and_congr_right fun h2 => ⟨fun hall d _ => hall d, fun hsmall d hlt hd hmod => ?_⟩
  have hprime : p.Prime := by
    refine Nat.prime_def_le_sqrt.mpr ⟨h2, fun m hm hsqrt hdvd => ?_⟩
    have hm21 : m < 21 := hsqrt.trans_lt (Nat.sqrt_lt'.mpr hp)
    have hmp : m < p := hsqrt.trans_lt (Nat.sqrt_lt_self h2)
    exact hsmall m hm21 hmp hm (Nat.mod_eq_zero_of_dvd hdvd)
  exact (Nat.prime_def_lt'.mp hprime).2 d hd hlt (Nat.dvd_of_mod_eq_zero hmod)

theorem filter_noProperDivisor_range :
    (List.range 410).filter (fun p => decide (2 ≤ p ∧ ∀ d, d < p → 2 ≤ d → p % d ≠ 0)) = firstPrimes := by
  have htrial : (List.range 410).filter (fun p => decide (2 ≤ p ∧ ∀ d, d < 21 → d < p → 2 ≤ d → p % d ≠ 0)) =
      firstPrimes := by decide +kernel
  rw [← htrial]
  refine List.filter_congr fun p hp => decide_eq_decide.mpr (noProperDivisor_iff_below_21 ?_)
  have hlt := List.mem_range.mp hp
  omega

/-- The table of SHA-256 (`43_sha.md` R196); 311 is below 7 cubed. -/
theorem k256_cubeRoots : ∀ t, t < 64 → ∃ q, q < 7 ∧
    (q * 2 ^ 32 + (k256.getD t 0).toNat) ^ 3 ≤ firstPrimes.getD t 0 * 2 ^ 96 ∧
    firstPrimes.getD t 0 * 2 ^ 96 < (q * 2 ^ 32 + (k256.getD t 0).toNat + 1) ^ 3 := by
  decide +kernel

/-- The table of SHA-512 (`43_sha.md` R200); 409 is below 8 cubed. -/
theorem k512_cubeRoots : ∀ t, t < 80 → ∃ q, q < 8 ∧
    (q * 2 ^ 64 + (k512.getD t 0).toNat) ^ 3 ≤ firstPrimes.getD t 0 * 2 ^ 192 ∧
    firstPrimes.getD t 0 * 2 ^ 192 < (q * 2 ^ 64 + (k512.getD t 0).toNat + 1) ^ 3 := by
  decide +kernel

/-- Settles O53: each hash is a fold over the blocks of the padded message, and the tables hold the fractions of the
cube roots of `firstPrimes`. -/
theorem hashesChainTheirBlocks : Obligations.HashesChainTheirBlocks := by
  refine ⟨sha1_chains, fun m => ?_, fun m => ?_, ?_⟩
  · exact sha2Digest_chains sha256Params (by decide) _ (padMessage_blocks m (by decide))
  · exact sha2Digest_chains sha512Params (by decide) _ (padMessage_blocks m (by decide))
  · rintro _ rfl
    rw [filter_noProperDivisor_range]
    refine ⟨rfl, rfl, rfl, fun t ht => ?_, fun t ht => ?_⟩
    · obtain ⟨q, -, hroot⟩ := k256_cubeRoots t ht
      exact ⟨q, hroot⟩
    · obtain ⟨q, -, hroot⟩ := k512_cubeRoots t ht
      exact ⟨q, hroot⟩

/-! ### Digest lengths -/

/-- Settles O50: `hashOf_length` for each function. -/
theorem digestLengths : Obligations.DigestLengths :=
  fun m => ⟨hashOf_length .sha1 m, hashOf_length .sha256 m, hashOf_length .sha512 m⟩

end Sys2Proof.Machine
end

section
/-! PROOFS. The statements on HMAC and HOTP of `44_hmac_hotp.md`: the counter's bytes, the key's block, and what the two
commands leave under a secret that is long enough and under one that is too short. -/

namespace Sys2Proof.Machine

/-! ### The counter's bytes -/

/-- A byte of a word's big-endian encoding, by the bits it holds (`00_scope.md` R8). -/
theorem getElem?_beBytes_toNat {w n i : Nat} (x : BitVec w) (hi : i < n) :
    (beBytes n x.toNat)[i]? = some (x.extractLsb' (8 * (n - 1 - i)) 8) := by
  simp [beBytes, hi, BitVec.extractLsb', Nat.shiftRight_eq_div_pow]

/-- CTR_HI's bytes, then CTR_LO's (`44_hmac_hotp.md` R230). -/
theorem counterBytes_eq_append (s : State) :
    s.counterBytes = beBytes 4 s.ctrHi.toNat ++ beBytes 4 s.ctrLo.toNat :=
  beBytes_append 4 4 _ _ s.ctrLo.isLt

/-- Settles O54: CTR_LO is below 2^32, so the counter is below 2^64 and its encoding splits between the two words. -/
theorem counterBytesAreBigEndian : Obligations.CounterBytesAreBigEndian := by
  intro s
  have hfits : s.counter < 256 ^ 8 := by
    rw [State.counter]
    omega
  refine ⟨counterBytes_eq_append s, ?_, ?_, ?_⟩
  · rw [State.counterBytes, be_beBytes, Nat.mod_eq_of_lt hfits, State.counter]
  · rw [counterBytes_eq_append, List.getElem?_append_left (by simp), getElem?_beBytes_toNat _ (by decide)]
  · rw [counterBytes_eq_append, List.getElem?_append_right (by simp), beBytes_length,
      getElem?_beBytes_toNat _ (by decide)]

/-! ### The key's block -/

theorem hmacKeyBlock_of_length_le {alg : HashAlg} {key : List Byte} (h : key.length ≤ alg.blockLength) :
    hmacKeyBlock alg key = key ++ List.replicate (alg.blockLength - key.length) 0 := by
  rw [hmacKeyBlock, if_neg (Nat.not_lt.mpr h)]

/-- A digest fits a block, so the block of a long key is that of its digest (`44_hmac_hotp.md` R231). -/
theorem hmacKeyBlock_hashOf {alg : HashAlg} {key : List Byte} (h : alg.blockLength < key.length) :
    hmacKeyBlock alg (hashOf alg key) = hmacKeyBlock alg key := by
  have hdigest : (hashOf alg key).length ≤ alg.blockLength := by
    rw [hashOf_length]
    exact alg.digestLength_le_blockLength
  rw [hmacKeyBlock_of_length_le hdigest, hmacKeyBlock, if_pos h]

/-- Zero bytes after a key that fits are part of its padding (`44_hmac_hotp.md` R231). -/
theorem hmacKeyBlock_append_zeros {alg : HashAlg} {key : List Byte} {k : Nat}
    (h : key.length + k ≤ alg.blockLength) :
    hmacKeyBlock alg (key ++ List.replicate k 0) = hmacKeyBlock alg key := by
  have hlen : (key ++ List.replicate k (0 : Byte)).length = key.length + k := by simp
  rw [hmacKeyBlock_of_length_le (hlen ▸ h), hmacKeyBlock_of_length_le (by omega), hlen, List.append_assoc,
    List.replicate_append_replicate]
  congr 2
  omega

/-- A pad is the key's block with one byte on every byte of it. -/
theorem getD_map_xor {bs : List Byte} {i : Nat} (hi : i < bs.length) (c : Byte) :
    (bs.map (· ^^^ c)).getD i 0 = bs.getD i 0 ^^^ c := by
  simp [hi]

/-- Settles O55: HMAC sees the key through `hmacKeyBlock` alone (`hmac_congr`), whose length is a block's. -/
theorem hmacKeyRules : Obligations.HmacKeyRules := by
  intro alg key msg B hB
  obtain rfl : B = alg.blockLength := by cases alg <;> exact hB
  have hlen := hmacKeyBlock_length alg key
  refine ⟨⟨_, hmacKeyBlock alg key, (hmacKeyBlock alg key).map (· ^^^ 0x36), (hmacKeyBlock alg key).map (· ^^^ 0x5C),
    rfl, rfl, hlen, ?_, ?_, fun i hi => ?_, rfl⟩, fun hlong => ?_, fun k hfit => ?_⟩
  · rw [List.length_map, hlen]
  · rw [List.length_map, hlen]
  · exact ⟨getD_map_xor (hlen ▸ hi) _, getD_map_xor (hlen ▸ hi) _⟩
  · exact hmac_congr alg _ _ msg (hmacKeyBlock_hashOf hlong).symm
  · exact hmac_congr alg _ _ msg (hmacKeyBlock_append_zeros hfit)

/-! ### A secret that is too short -/

theorem exec_hmac_short {s : State} (h : s.binlen.toNat < 16) :
    exec .hmac s = .next (s.record .invalidSecret s.binlen).finish := by
  rw [exec, execHmac, hmacResult, Config.secretMin, if_pos h, complete_raised]

theorem exec_hotp_short {s : State} (h : s.binlen.toNat < 16) :
    exec .hotp s = .next (s.record .invalidSecret s.binlen).finish := by
  rw [exec, execHotp, hotpResult, Config.secretMin, if_pos h, complete_raised]

/-- Settles O57: the error record on one side of 16, stored results, which leave it alone, on the other. -/
theorem shortSecretIsRejected : Obligations.ShortSecretIsRejected := by
  intro s
  refine ⟨fun hshort => ⟨exec_hmac_short hshort, exec_hotp_short hshort⟩,
    fun hlong => ⟨⟨_, exec_hmac_ok s hlong, ?_⟩, ⟨_, exec_hotp_ok s hlong, ?_⟩⟩⟩
  · simp
  · simp

/-! ### HMAC -/

/-- DIGLEN after a digest was stored is the length of the digest (`44_hmac_hotp.md` R233). -/
theorem storeDigest_diglen_toNat (s : State) :
    (s.storeDigest s.counterHmac).diglen.toNat = s.counterHmac.length := by
  rw [State.storeDigest_diglen, diglen_toNat, State.counterHmac, hmac_length]

/-- What a state reads after the digest was stored: DIGEST below DIGLEN is the digest, and every other offset is as
before (`44_hmac_hotp.md` R233). -/
theorem storeDigest_readBack (s : State) :
    (s.storeDigest s.counterHmac).digestBytes = s.counterHmac ∧
    ∀ a, (∀ i, i < (s.storeDigest s.counterHmac).diglen.toNat → a ≠ Buffer.digest.base + i) →
      (s.storeDigest s.counterHmac).readByte a = s.readByte a := by
  rw [State.digestBytes, storeDigest_diglen_toNat]
  exact readBack_of_writeBuffer rfl rfl (digest_fits s)

/-- Storing a digest and completing change DIGEST, DIGLEN and the flags of completion alone. -/
theorem storeDigest_finish_frame (d : List Byte) (s : State) :
    { (s.storeDigest d).finish with diglen := s.diglen, mem := s.mem, busy := s.busy, done := s.done } = s := by
  simp

/-- Settles O56: the digest fits DIGEST and its length DIGLEN, so both hold all of it. -/
theorem hmacDigestsTheCounter : Obligations.HmacDigestsTheCounter := by
  intro s _
  obtain ⟨hdigest, hrest⟩ := storeDigest_readBack s
  exact ⟨fun hlong => ⟨_, exec_hmac_ok s hlong, hdigest, diglen_word s.alg, rfl, rfl,
    storeDigest_finish_frame s.counterHmac s, hrest⟩, exec_hmac_short⟩

/-- Settles O60: by `hmacDigestsTheCounter` each run's digest is the HMAC of operands the two states share. -/
theorem hmacDependsOnItsOperandsAlone : Obligations.HmacDependsOnItsOperandsAlone := by
  intro s u hs hu hlong halg hbinlen hhi hlo hkey
  obtain ⟨t, ht, htdigest, htlen, -⟩ := (hmacDigestsTheCounter s hs).1 hlong
  obtain ⟨v, hv, hvdigest, hvlen, -⟩ := (hmacDigestsTheCounter u hu).1 (hbinlen ▸ hlong)
  have hbytes : u.bytes .bin s.binlen.toNat = s.bytes .bin s.binlen.toNat :=
    List.map_congr_left fun i hi => hkey i (List.mem_range.mp hi)
  refine ⟨t, v, ht, hv, ?_, ?_⟩
  · rw [hvlen, htlen, halg]
  · rw [hvdigest, htdigest, halg, hbinlen, hhi, hlo, hbytes]

/-! ### HOTP -/

/-- Storing a password leaves the digest: no byte of PWD is one of DIGEST (`20_memory.md` R60). -/
theorem storePassword_digestBytes {s : State} (h : s.diglen.toNat ≤ Buffer.digest.capacity) (v : BitVec 31) :
    (s.storePassword v).digestBytes = s.digestBytes :=
  State.writeBuffer_bytes_other s _ _ (by decide) h

/-- Storing a digest and a password and completing change their six outputs and the flags of completion alone. -/
theorem storePassword_storeDigest_finish_frame (v : BitVec 31) (d : List Byte) (s : State) :
    { ((s.storeDigest d).storePassword v).finish with
      diglen := s.diglen, truncval := s.truncval, code := s.code, pwdlen := s.pwdlen, mem := s.mem, busy := s.busy,
      done := s.done } = s := by
  simp

/-- Settles O58: HOTP stores the digest and then the password (`storePassword_finish_readBack`), in two buffers. -/
theorem hotpTurnsCounterIntoPassword : Obligations.HotpTurnsCounterIntoPassword := by
  intro s hs
  refine ⟨fun hlong => ?_, exec_hotp_short⟩
  obtain ⟨hdigest, hdigestRest⟩ := storeDigest_readBack s
  obtain ⟨hpwd, hpwdRest⟩ := storePassword_finish_readBack (inv_storeDigest hs s.counterHmac) (trunc s.counterHmac)
  have hfits : (s.storeDigest s.counterHmac).diglen.toNat ≤ Buffer.digest.capacity := by
    rw [storeDigest_diglen_toNat]
    exact digest_fits s
  have hcode := code_toNat (trunc s.counterHmac) s.digits.toNat
  refine ⟨_, s.counterHmac, exec_hotp_ok s hlong, rfl, (storePassword_digestBytes hfits _).trans hdigest,
    diglen_word s.alg, rfl, hcode, rfl, ?_, rfl, rfl, storePassword_storeDigest_finish_frame _ _ s,
    fun a hdigestOut hpwdOut => ?_⟩
  · exact hpwd.trans (congrArg (renderDigits · s.digits.toNat) hcode.symm)
  · exact (hpwdRest a hpwdOut).trans (hdigestRest a hdigestOut)

/-- Settles O59: TRUNC finds in DIGEST the HMAC just stored (`storeDigest_readBack`), which HOTP truncates as well. -/
theorem hotpIsHmacThenTrunc : Obligations.HotpIsHmacThenTrunc := by
  intro s _
  refine ⟨fun hlong => ?_, fun hshort => (exec_hotp_short hshort).trans (exec_hmac_short hshort).symm⟩
  obtain ⟨hstored, -⟩ := storeDigest_readBack s
  have hdigest : (s.storeDigest s.counterHmac).finish.digestBytes = s.counterHmac := hstored
  have hpresent : (s.storeDigest s.counterHmac).finish.diglen ≠ 0 := by
    rw [State.finish_diglen, State.storeDigest_diglen]
    cases s.alg <;> decide
  have htrunc := exec_trunc_ok hpresent
  rw [hdigest] at htrunc
  exact ⟨_, _, exec_hmac_ok s hlong, htrunc, exec_hotp_ok s hlong⟩

end Sys2Proof.Machine
end

section
/-! PROOFS. The statements on errors and the interrupt of `60_exceptions.md`: that no run stops, who clears a recorded
error, who raises `irq`, and what a failed command leaves alone. -/

namespace Sys2Proof.Machine

/-! ### No run stops -/

/-- Every command has a meaning in every state; an ERASE that waits for its draws leaves the state as it is. -/
theorem exec_answers (i : Instr) (s : State) : ∃ t, exec i s = .next t := by
  cases i
  case erase sel =>
    simp only [exec, execErase]
    split <;> exact ⟨_, rfl⟩
  case b32enc | b32dec | trunc | hmac | hotp => exact ⟨_, rfl⟩

/-- The invariant `inFlightLegal` rules out `illegalInFlight`, the one fault of the machine (log entry 8). -/
theorem sequencerTurn_answers {s : State} (h : s.Inv) : ∃ t, sequencerTurn s = .next t := by
  cases hb : s.busy
  · exact ⟨s, sequencerTurn_of_idle hb⟩
  · obtain ⟨i, hi⟩ := (legal_iff_decodes s.cmdreg).mp (h.inFlightLegal hb)
    rw [sequencerTurn_of_busy hb hi]
    exact exec_answers i s

theorem perform_answers {s : State} (h : s.Inv) (e : Event) : ∃ t, perform e s = .next t := by
  cases e
  case sequencer => exact sequencerTurn_answers h
  case host | deliver | reset => exact ⟨_, rfl⟩

theorem step_answers {s : State} (h : s.Inv) : ∃ t, step s = .next t := by
  unfold step advance
  split
  · exact sequencerTurn_answers h
  · exact perform_answers (inv_withInputs h _) _

/-- Settles O14: by induction on the length of the run, since a state of the invariants has a next state
(`step_answers`) and that state is one of the invariants again (`stepKeepsInvariants`). -/
theorem noRunStops : Obligations.NoRunStops := by
  intro s h n
  induction n generalizing s with
  | zero => exact ⟨s, rfl⟩
  | succ n ih =>
    obtain ⟨t, hst⟩ := step_answers h
    obtain ⟨u, hrun⟩ := ih t (stepKeepsInvariants s t h hst)
    exact ⟨u, (run_next core n s t hst).trans hrun⟩

/-! ### Recorded errors -/

/-- A transaction keeps a recorded error recorded, or it writes 1 to STATUS.ERR while BUSY = 0, which zeroes the code
and the detail. -/
theorem transact_err_of_err (x : Txn) {s : State} (h : s.err = true) :
    (transact x s).2.err = true ∨
    (s.busy = false ∧ ∃ v, x = .write Reg.status.offset 4 v ∧ v.getLsbD 2 = true ∧
      (transact x s).2.errcode = 0 ∧ (transact x s).2.errinfo = 0) := by
  rcases transact_cases x s with ht | ⟨_, ht⟩ | ⟨hb, r, v, hx, _, ht⟩ | ⟨_, b, i, v, _, _, _, ht⟩ <;> rw [ht]
  · exact .inl h
  · exact .inl h
  · rcases writeReg_err r v s with herr | hsame | ⟨rfl, hv, hzero⟩
    · exact .inl herr
    · exact .inl (hsame.trans h)
    · exact .inr ⟨hb, v, hx, hv, hzero⟩
  · exact .inl h

/-- Settles O16: the write rule of STATUS is `clearFlags`; and of the agents' moves only reset and that write clear ERR,
commands keeping it (`exec_flags`). -/
theorem errorClearedOnlyByHostOrReset : Obligations.ErrorClearedOnlyByHostOrReset := by
  constructor
  · intro s v hb hv
    exact ⟨s.clearFlags v, write_at .status rfl v s hb, by simp [hv], by simp [hv], by simp [hv]⟩
  · intro s t hst herr hclear
    have hnot : t.err ≠ true := ne_true_of_eq_false hclear
    rcases step_cases hst with ⟨rest, x, hin, rfl⟩ | ⟨rest, b, _, rfl⟩ | ⟨rest, hin, rfl⟩ |
      ⟨_, ins, ⟨_, rfl⟩ | ⟨_, i, _, ht⟩⟩
    · rcases transact_err_of_err x (s := { s with inputs := rest }) herr with hkept | ⟨hb, v, rfl, hv, hzero⟩
      · exact absurd hkept hnot
      · exact ⟨.inr ⟨v, rest, hin, hv, hb⟩, hzero⟩
    · exact absurd herr hnot
    · exact ⟨.inl ⟨rest, hin⟩, rfl, rfl⟩
    · exact absurd herr hnot
    · rcases exec_flags ht with rfl | ⟨_, _, _, hkeep⟩
      · exact absurd herr hnot
      · exact absurd (hkeep herr) hnot

/-- Settles O19: a command waits, records an error and writes nothing else, or makes writes that keep ERR. -/
theorem failedCommandWritesNothing : Obligations.FailedCommandWritesNothing := by
  intro i s t ht hclear herr
  have hnot : s.err ≠ true := ne_true_of_eq_false hclear
  rcases exec_cases ht with rfl | ⟨k, info, rfl⟩ | ⟨s', hs, rfl⟩
  · exact absurd herr hnot
  · exact ⟨rfl, rfl, rfl⟩
  · exact absurd (hs.err.symm.trans herr) hnot

/-! ### The interrupt -/

/-- A transaction raises `irq` only by a write of 1 to CTRL.IE over a set DONE while BUSY = 0. -/
theorem transact_irq_of_low (x : Txn) {s : State} (h : s.irq = false) :
    (transact x s).2.irq = false ∨
    (s.busy = false ∧ s.done = true ∧ ∃ v, x = .write Reg.ctrl.offset 4 v ∧ v.getLsbD 0 = true) := by
  rcases transact_cases x s with ht | ⟨_, ht⟩ | ⟨hb, r, v, hx, _, ht⟩ | ⟨_, b, i, v, _, _, _, ht⟩ <;> rw [ht]
  · exact .inl h
  · exact .inl h
  · rcases writeReg_irq r v s h with hlow | ⟨rfl, hv, hdone⟩
    · exact .inl hlow
    · exact .inr ⟨hb, hdone, v, hx, hv⟩
  · exact .inl h

/-- A command that answers with BUSY = 0 has completed: DONE is set and IE is as it was, so `irq` is IE. -/
theorem exec_irq_of_completed {i : Instr} {s t : State} (ht : exec i s = .next t) (hb : s.busy = true)
    (hidle : t.busy = false) : t.irq = s.ie := by
  rcases exec_flags ht with rfl | ⟨_, hdone, hie, _⟩
  · exact absurd hb (ne_true_of_eq_false hidle)
  · rw [State.irq, hdone, hie, Bool.and_true]

/-- Settles O17: every completion sets DONE (`exec_irq_of_completed`), and of the other moves only a CTRL write raises
`irq` (`transact_irq_of_low`). -/
theorem interruptRisesOnlyByCompletionOrEnable : Obligations.InterruptRisesOnlyByCompletionOrEnable := by
  refine ⟨fun _ => rfl, fun i s t hie hb ht hidle => (exec_irq_of_completed ht hb hidle).trans hie,
    fun s t hst hlow hhigh => ?_⟩
  have hnot : t.irq ≠ false := ne_false_of_eq_true hhigh
  rcases step_cases hst with ⟨rest, x, hin, rfl⟩ | ⟨rest, b, _, rfl⟩ | ⟨rest, _, rfl⟩ |
    ⟨_, ins, ⟨_, rfl⟩ | ⟨hb, i, _, ht⟩⟩
  · rcases transact_irq_of_low x (s := { s with inputs := rest }) hlow with hstill | ⟨hb, hdone, v, rfl, hv⟩
    · exact absurd hstill hnot
    · exact .inr ⟨v, rest, hin, hv, hb, hdone⟩
  · exact absurd hlow hnot
  · exact absurd rfl hnot
  · exact absurd hlow hnot
  · rcases exec_flags ht with rfl | ⟨hidle, hdone, _⟩
    · exact absurd hlow hnot
    · exact .inl ⟨hb, hidle, hdone⟩

end Sys2Proof.Machine
end

section
/-! PROOFS. The statements of `70_reset_and_hazards.md`: what reset leaves in any state, and what the lockout makes of the
host's accesses while a command is in flight. -/

namespace Sys2Proof.Machine

/-! ### Reset -/

theorem step_of_reset_next {s : State} {rest : List Event} (h : s.inputs = .reset :: rest) :
    step s = .next (resetEvent { s with inputs := rest }) := by
  simp only [step, advance, h, perform]

/-- Settles O10: every field the statement names is that of `State.reset`, whatever the state, but for the inputs, which
are those left. -/
theorem resetSetsEveryRegister : Obligations.ResetSetsEveryRegister := by
  intro s rest hin
  refine ⟨_, step_of_reset_next hin, ?_⟩
  and_intros <;> rfl

/-! ### The lockout -/

/-- An allowed write while BUSY = 1 is discarded, whether it names a register or a buffer's byte
(`70_reset_and_hazards.md` R298). -/
theorem memWrite_of_allowed_busy {addr n : Nat} {s : State} (v : Word)
    (hallowed : (Target.allowed .write addr n).isSome = true) (hbusy : s.busy = true) :
    memWrite addr n v s = (.ok, s.hazard) := by
  obtain ⟨t, ht⟩ := Option.isSome_iff_exists.mp hallowed
  cases t with
  | reg r => simp only [memWrite, ht, hbusy, if_true]
  | byte b i => simp only [memWrite, ht, hbusy, if_true]

/-- Settles O27: the lockout on writes (`memWrite_of_allowed_busy`) and on buffer bytes (`memRead_byte`); a register's
read does not look at BUSY (`readReg_at`). -/
theorem lockoutWhileBusy : Obligations.LockoutWhileBusy := by
  intro s hbusy
  refine ⟨fun _ _ v hallowed => memWrite_of_allowed_busy v hallowed hbusy, fun b i hi => ?_, fun r => readReg_at r s⟩
  rw [memRead_byte hi, if_pos hbusy]
  rfl

end Sys2Proof.Machine
end
